-- ==== Sys2Proof/Word.lean ====
section
/-! DEFINITION. The bit-vector types of the block (R5, R7): bytes and 32-bit command and read-data words, with
the numbering of R7. Bit 0 is the least significant bit everywhere (R7). -/

namespace Sys2Proof

/-- An 8-bit unsigned value: a ROM byte, a sample, a factor, a waveform index (R5). -/
abbrev Byte := BitVec 8

/-- A 32-bit word: a command word (R80) or the read-data register (R40). -/
abbrev Word := BitVec 32

end Sys2Proof
end

