-- ==== Sys2Proof/Syntax.lean ====
section
/-! DEFINITION. The ten commands of the block (R90), one constructor per row of the opcode map, with the operand
fields of R81 at their own widths. -/

namespace Sys2Proof

/-- A command of the block. Field values that a command's own rule refuses (a slot of 61 or more, an unknown
selector) are commands all the same: they decode, and the command raises the error (R93). -/
inductive Instr where
  /-- NOP, opcode 0x0, format Z (R180). -/
  | nop
  /-- TICK, opcode 0x1, format Z (R170). -/
  | tick
  /-- SETSTEP, opcode 0x2, format I16 (R183). -/
  | setstep (imm16 : BitVec 16)
  /-- SETSLOT, opcode 0x3, format I8 (R185). -/
  | setslot (imm8 : Byte)
  /-- SETCOEF, opcode 0x4, format I8 (R186). -/
  | setcoef (imm8 : Byte)
  /-- WSLOT, opcode 0x5, format SW (R100). -/
  | wslot (slot : BitVec 6) (key : BitVec 1) (wl : Byte) (wr : Byte)
  /-- WFACT, opcode 0x6, format SF (R102). -/
  | wfact (slot : BitVec 6) (fac : Byte)
  /-- READ, opcode 0x7, format I8 (R188). -/
  | read (sel : Byte)
  /-- CLRERR, opcode 0x8, format Z (R194). -/
  | clrerr
  /-- SRST, opcode 0x9, format Z (R196). -/
  | srst
deriving DecidableEq, Repr

end Sys2Proof
end

