-- ==== Sys2Proof/Decode.lean ====
section
/-! DEFINITION. Decoding a command word (R80 to R85, R90 to R92), the byte transport of a word (R64), and the encoder
written from the layouts of R82. Decoding is total and rejects by name. -/

namespace Sys2Proof

/-- Why a word or a byte string is not a command. -/
inductive Reject where
  /-- The opcode is one of 0xA to 0xF (R92). -/
  | reservedOpcode
  /-- A should-be-zero bit of the opcode's format is 1 (R91). -/
  | shouldBeZero
  /-- Fewer than the four bytes of a command word (R64, R80). -/
  | truncated
deriving DecidableEq, Repr

/-- `op = cmd[31:28]` (R80). -/
def opcodeOf (w : Word) : BitVec 4 := w.extractLsb' 28 4

/-- `slot = cmd[27:22]` (R81). -/
def slotField (w : Word) : BitVec 6 := w.extractLsb' 22 6

/-- `key = cmd[16]` (R81). -/
def keyField (w : Word) : BitVec 1 := w.extractLsb' 16 1

/-- `wl = cmd[15:8]` (R81). -/
def wlField (w : Word) : Byte := w.extractLsb' 8 8

/-- The low byte, which is `wr`, `fac`, `imm8` or `sel` by format (R81). -/
def lowByteField (w : Word) : Byte := w.extractLsb' 0 8

/-- `imm16 = cmd[15:0]` (R81). -/
def imm16Field (w : Word) : BitVec 16 := w.extractLsb' 0 16

/-- One row of the opcode map: a word `w` is the command when `w &&& mask = pattern` (R90). -/
structure CommandRow where
  /-- The command's name in the opcode map. -/
  mnemonic : String
  /-- The map's `match` value. -/
  pattern : Word
  /-- The opcode and every should-be-zero bit. -/
  mask : Word
  /-- The command with the fields of the word. -/
  build : Word → Instr

/-- The opcode map of R90, the row of opcode `n` at position `n`. -/
def commandRows : List CommandRow :=
  [ ⟨"NOP",     0x00000000#32, 0xFFFFFFFF#32, fun _ => .nop⟩,
    ⟨"TICK",    0x10000000#32, 0xFFFFFFFF#32, fun _ => .tick⟩,
    ⟨"SETSTEP", 0x20000000#32, 0xFFFF0000#32, fun w => .setstep (imm16Field w)⟩,
    ⟨"SETSLOT", 0x30000000#32, 0xFFFFFF00#32, fun w => .setslot (lowByteField w)⟩,
    ⟨"SETCOEF", 0x40000000#32, 0xFFFFFF00#32, fun w => .setcoef (lowByteField w)⟩,
    ⟨"WSLOT",   0x50000000#32, 0xF03E0000#32,
      fun w => .wslot (slotField w) (keyField w) (wlField w) (lowByteField w)⟩,
    ⟨"WFACT",   0x60000000#32, 0xF03FFF00#32, fun w => .wfact (slotField w) (lowByteField w)⟩,
    ⟨"READ",    0x70000000#32, 0xFFFFFF00#32, fun w => .read (lowByteField w)⟩,
    ⟨"CLRERR",  0x80000000#32, 0xFFFFFFFF#32, fun _ => .clrerr⟩,
    ⟨"SRST",    0x90000000#32, 0xFFFFFFFF#32, fun _ => .srst⟩ ]

/-- Decoding one command word (R85): the opcode picks the row, and every should-be-zero bit is checked. -/
def decodeWord (w : Word) : Except Reject Instr :=
  match commandRows[(opcodeOf w).toNat]? with
  | none => .error .reservedOpcode
  | some row => if w &&& row.mask = row.pattern then .ok (row.build w) else .error .shouldBeZero

/-- The four bytes of a word on a byte transport, byte 0 holding bits [7:0] (R64). -/
def wordBytes (w : Word) : List Byte :=
  [w.extractLsb' 0 8, w.extractLsb' 8 8, w.extractLsb' 16 8, w.extractLsb' 24 8]

/-- The word that four transported bytes carry, little-endian (R64). -/
def wordOfBytes (b0 b1 b2 b3 : Byte) : Word := b3 ++ b2 ++ b1 ++ b0

/-- Decoding the command at the front of a byte transport, with the bytes after it (R64, R80). -/
def decodeBytes : List Byte → Except Reject (Instr × List Byte)
  | b0 :: b1 :: b2 :: b3 :: rest =>
    match decodeWord (wordOfBytes b0 b1 b2 b3) with
    | .ok i => .ok (i, rest)
    | .error e => .error e
  | _ => .error .truncated

/-- The command word whose low `nbits` bits are those of `w` and whose other bits are 0, in the opcode table's
numbering. -/
def tableWord (nbits w : Nat) : Word := BitVec.ofNat 32 (w % 2 ^ nbits)

/-- What the decoder reads from an instruction given by the opcode table's bit numbering. -/
def decodeTableWord (nbits w : Nat) : Option Instr :=
  match decodeBytes (wordBytes (tableWord nbits w)) with
  | .ok (i, _) => some i
  | .error _ => none

/-- The word of a command, from the layouts of R82 with the fields most significant first. -/
def encode : Instr → Word
  | .nop => 0x0#4 ++ 0#28
  | .tick => 0x1#4 ++ 0#28
  | .setstep imm16 => 0x2#4 ++ 0#12 ++ imm16
  | .setslot imm8 => 0x3#4 ++ 0#20 ++ imm8
  | .setcoef imm8 => 0x4#4 ++ 0#20 ++ imm8
  | .wslot slot key wl wr => 0x5#4 ++ slot ++ 0#5 ++ key ++ wl ++ wr
  | .wfact slot fac => 0x6#4 ++ slot ++ 0#14 ++ fac
  | .read sel => 0x7#4 ++ 0#20 ++ sel
  | .clrerr => 0x8#4 ++ 0#28
  | .srst => 0x9#4 ++ 0#28

/-- The four transported bytes of a command (R64). -/
def encodeBytes (i : Instr) : List Byte := wordBytes (encode i)

end Sys2Proof
end

