-- ==== Sys2Proof/Config.lean ====
section
/-! DEFINITION. What an implementation of the block fixes and the spec leaves open. The fixed sizes of R5 are numbers.
The parameters of R6 and the unspecified values of R34 and I1 are opaque: no proof can learn a value of them. -/

namespace Sys2Proof.Config

/-- `N`, the number of slots of a wavetable (R5). -/
def slots : Nat := 61

/-- `WAVE_LEN`, the number of stored samples of a waveform (R5). -/
def waveLen : Nat := 64

/-- One below the parameter `WAVE_COUNT` of R6, so that `waveCount` ranges over exactly 1..256.
DESIGN CHOICE (log 1): safe, it is free. -/
opaque lastWave : BitVec 8

/-- The parameter `WAVE_COUNT` of R6 of the machine that `State.reset` describes, somewhere in 1..256. -/
def waveCount : Nat := lastWave.toNat + 1

/-- The parameter `ROM_IMAGE` of R6: the byte at each ROM address that a state's ROM does not list.
DESIGN CHOICE (log 2): safe, it is free. -/
opaque romImage : Nat → Byte

/-- What a fetch at an address outside the ROM gives. Only a `left` or `right` field never written since power-on can
make such an address (R61, I1). DESIGN CHOICE (log 4): safe, it is free. -/
opaque beyondRom : Nat → Byte

/-- The unspecified bit the `key` field of a slot holds until it is first written (R34). DESIGN CHOICE (log 3): safe. -/
opaque unwrittenKey : Nat → BitVec 1

/-- The unspecified bits the `left` field of a slot holds until it is first written (R34). DESIGN CHOICE (log 3): safe. -/
opaque unwrittenLeft : Nat → Byte

/-- The unspecified bits the `right` field of a slot holds until it is first written (R34). DESIGN CHOICE (log 3): safe. -/
opaque unwrittenRight : Nat → Byte

/-- The unspecified bits the `factor` field of a slot holds until it is first written (R34). DESIGN CHOICE (log 3): safe. -/
opaque unwrittenFactor : Nat → Byte

end Sys2Proof.Config
end

