-- ==== Sys2Proof/Machine/State.lean ====
section
/-! DEFINITION. The state of the block (R20 to R43), of its ports, and of the parameters a build fixes (R6), as plain
data, with its value right after the reset input at power-on (R240). -/

namespace Sys2Proof.Machine

/-- The three errors a command can raise (R210 to R212). -/
inductive ErrorCause where
  /-- ILLEGAL_CMD, code 1 (R210). -/
  | illegalCmd
  /-- INVALID_FORMAT, code 2 (R211). -/
  | invalidFormat
  /-- OUT_OF_RANGE, code 3 (R212). -/
  | outOfRange
deriving DecidableEq, Repr

/-- One thing the host sends the block (R230): a command word on the command port, or the reset input, which it
asserts only between commands (R240). -/
inductive HostInput where
  | command (w : Word)
  | resetInput
deriving DecidableEq, Repr

/-- One field of a slot-table entry: its bits, and the record of whether a command has written it since power-on that
R241 asks of a model. The bits of an unwritten field are never read (see `Stored.value`). -/
structure Stored (width : Nat) where
  bits : BitVec width
  written : Bool
deriving DecidableEq, Repr

/-- A field no command has written since power-on (R34). -/
def Stored.unwritten (width : Nat) : Stored width := ⟨0, false⟩

/-- One entry of the slot table (R31). -/
structure SlotEntry where
  key : Stored 1
  left : Stored 8
  right : Stored 8
  factor : Stored 8
deriving DecidableEq, Repr

/-- An entry no command has written since power-on (R34). -/
def SlotEntry.unwritten : SlotEntry :=
  ⟨Stored.unwritten 1, Stored.unwritten 8, Stored.unwritten 8, Stored.unwritten 8⟩

/-- A memory: address and byte pairs with strictly rising addresses, none equal to what an unlisted address reads as. -/
abbrev Memory := List Host.Cell

/-- What an address that a memory does not list reads as: the byte of the parameter `ROM_IMAGE` (R6, R35).
DESIGN CHOICE (log 2): safe, the byte is free. -/
def Memory.unlisted (a : Nat) : Byte := Config.romImage a

/-- The canonical form of a memory. -/
abbrev Memory.wf (m : Memory) : Prop :=
  List.Pairwise (fun c d => c.1 < d.1) m ∧ ∀ c ∈ m, c.2 ≠ Memory.unlisted c.1

/-- The machine: the registers of R20, the slot table of R31, the ports of R40 to R42, and the parameters of R6, which
no command and no reset changes. -/
structure State where
  /-- STATUS.ERR, 2 bits: 0 or the code of the first error since it was cleared (R28). -/
  err : BitVec 2
  /-- PHASE, the 16-bit phase accumulator (R21). -/
  phase : BitVec 16
  /-- STEP, the 16-bit phase step (R22). -/
  phaseStep : BitVec 16
  /-- SLOT, the slot select. It holds only 0..60 (R23). -/
  slot : Fin 61
  /-- COEF, the 8-bit filter coefficient of both stages (R24). -/
  coef : Byte
  /-- RAW, the interpolator's output of the last TICK (R26). -/
  raw : Byte
  /-- OUT, the output sample of the last TICK (R27). -/
  out : Byte
  /-- INT1, the 16-bit two's-complement integrator of stage 1 (R25). -/
  int1 : BitVec 16
  /-- INT2, the 16-bit two's-complement integrator of stage 2 (R25). -/
  int2 : BitVec 16
  /-- COUNT, the 32-bit sample counter (R29). -/
  count : BitVec 32
  /-- RDATA, the read-data register (R40). -/
  rdata : Word
  /-- ST, the slot table of 61 entries (R31). -/
  table : Vector SlotEntry 61
  /-- The waveform ROM (R35): the listed bytes of `ROM_IMAGE`. -/
  rom : Memory
  /-- The parameter `WAVE_COUNT` (R6). -/
  waveCount : Nat
  /-- The samples the output port has carried, oldest first (R41, R256). -/
  emitted : List Byte
  /-- What the host sends next, the next input first (R42, R230). The command port itself holds nothing (R42): this is
  the host's stream. -/
  port : List HostInput
deriving DecidableEq, Repr

/-- What stops the machine: nothing. Every error the spec names sets STATUS.ERR and the block goes on (R214, R216),
TICK has no error states (R213), and there is no halt (R256), so the type has no constructor. -/
inductive Fault where
deriving DecidableEq, Repr

/-- Why the model gives an instruction no meaning. -/
inductive Refusal where
  /-- Raised by `exec`, in the arm of an instruction that has no meaning yet; no arm raises it now. Safe. -/
  | notModelled (mnemonic : String)
deriving DecidableEq, Repr

/-- The block right after power-on and the reset input (R20, R240): every register at the value the spec gives, the
slot table unwritten (R34), no input from the host yet. The parameters are those of `Config`. -/
def State.reset : State where
  err := 0
  phase := 0
  phaseStep := 0
  slot := 0
  coef := 0
  raw := 128
  out := 128
  int1 := 0
  int2 := 0
  count := 0
  rdata := 0
  table := Vector.replicate 61 SlotEntry.unwritten
  rom := []
  waveCount := Config.waveCount
  emitted := []
  port := []

end Sys2Proof.Machine
end

