-- ==== Sys2Proof/Machine/Flags.lean ====
section
/-! DEFINITION. The block's only flag, STATUS.ERR (R28): the codes, the word READ gives, and how an error updates the
sticky field. There are no condition codes. -/

namespace Sys2Proof.Machine

/-- The code an error leaves in STATUS.ERR (R28). -/
def errorCode : ErrorCause → BitVec 2
  | .illegalCmd => 1
  | .invalidFormat => 2
  | .outOfRange => 3

/-- STATUS.ERR after an error: the first error since it was cleared stays (R214). -/
def stickyError (err : BitVec 2) (c : ErrorCause) : BitVec 2 := if err = 0 then errorCode c else err

/-- STATUS as READ gives it: ERR in bits [1:0], bits [31:2] zero (R28). -/
def statusWord (err : BitVec 2) : Word := 0#30 ++ err

end Sys2Proof.Machine
end

