-- ==== Sys2Proof/Machine/Operands.lean ====
section
/-! DEFINITION. The arithmetic of R8 (clamp, saturation, division toward zero), and how the slot operand and the
selector operand of a command name a piece of state. -/

namespace Sys2Proof.Machine

/-- `clamp(v, lo, hi)` (R8). -/
def clampInt (v lo hi : Int) : Int := if v < lo then lo else if v > hi then hi else v

/-- `sat16(v)`: saturation to -32767..32767 (R8, R162). -/
def sat16 (v : Int) : Int := clampInt v (-32767) 32767

/-- `tdiv256(v)`: division by 256 rounded toward zero (R8, R161). -/
def tdiv256 (v : Int) : Int := if v ≥ 0 then v / 256 else -((-v) / 256)

/-- The 16-bit two's-complement encoding of a signed value (R8, R10). -/
def word16OfInt (v : Int) : BitVec 16 := BitVec.ofInt 16 v

/-- The slot-table index that a 6-bit `slot` operand names, if it names one (R62, R81). -/
def slotIndex (slot : BitVec 6) : Option (Fin 61) :=
  if h : slot.toNat < 61 then some ⟨slot.toNat, h⟩ else none

/-- `min(imm8, 60)`: the slot SETSLOT selects (R185). -/
def clampedSlot (imm8 : Byte) : Fin 61 := if h : imm8.toNat < 61 then ⟨imm8.toNat, h⟩ else 60

/-- What a READ selector names (R63, R188). -/
inductive Selected where
  | status
  | phase
  | phaseStep
  | slot
  | coef
  | raw
  | out
  | int1
  | int2
  | count
  | param
  | entry (s : Fin 61)
deriving DecidableEq, Repr

/-- The register or slot-table entry of a selector, if it is one READ lists (R188). -/
def selectedBy (sel : Byte) : Option Selected :=
  match sel.toNat with
  | 0x00 => some .status
  | 0x01 => some .phase
  | 0x02 => some .phaseStep
  | 0x03 => some .slot
  | 0x04 => some .coef
  | 0x05 => some .raw
  | 0x06 => some .out
  | 0x07 => some .int1
  | 0x08 => some .int2
  | 0x09 => some .count
  | 0x0A => some .param
  | n => if h : 0x40 ≤ n ∧ n - 0x40 < 61 then some (.entry ⟨n - 0x40, h.2⟩) else none

end Sys2Proof.Machine
end

