-- ==== Sys2Proof/Machine/Ops.lean ====
section
/-! DEFINITION. The named operations over the ROM, the slot table, the registers and the ports; raising an error and
clearing it (the block's only form of exception, R214 to R219); the reset input. -/

namespace Sys2Proof.Machine

/-- The byte a memory lists at an address. -/
def Memory.lookup : Memory → Nat → Option Byte
  | [], _ => none
  | c :: rest, a => if c.1 = a then some c.2 else Memory.lookup rest a

/-- The byte of a memory at an address. -/
def Memory.read (m : Memory) (a : Nat) : Byte :=
  match Memory.lookup m a with
  | some b => b
  | none => Memory.unlisted a

/-- A memory with one byte placed, in canonical form. No command writes the ROM (R35): this is how an image is put in
a machine before it runs (`Memory.ofImage`). -/
def Memory.write : Memory → Nat → Byte → Memory
  | [], a, b => if b = Memory.unlisted a then [] else [(a, b)]
  | c :: rest, a, b =>
    if c.1 < a then c :: Memory.write rest a b
    else
      let above := if c.1 = a then rest else c :: rest
      if b = Memory.unlisted a then above else (a, b) :: above

/-- A memory with the bytes of `image` placed from address `a` up. -/
def Memory.placeFrom (m : Memory) (a : Nat) : List Byte → Memory
  | [] => m
  | b :: rest => Memory.placeFrom (Memory.write m a b) (a + 1) rest

/-- The ROM that holds `image` from address 0 up (R6, R60). -/
def Memory.ofImage (image : List Byte) : Memory := Memory.placeFrom [] 0 image

/-- The machine of a state with the parameters `WAVE_COUNT` and `ROM_IMAGE` given as arguments (R6). -/
def State.withParameters (s : State) (waveCount : Nat) (image : List Byte) : State :=
  { s with waveCount := waveCount, rom := Memory.ofImage image }

/-- `MemRead(a, 1)`: the ROM byte at an address below `64 * WAVE_COUNT` (R60). No written slot entry makes another
address (R61); one made from an unwritten field fetches a free byte (I1). DESIGN CHOICE (log 4): safe. -/
def State.romByte (s : State) (a : Nat) : Byte :=
  if a < Config.waveLen * s.waveCount then Memory.read s.rom a else Config.beyondRom a

/-- The value of a stored field: its bits once written; until then an unspecified value (R34, I1).
DESIGN CHOICE (log 3): safe, the value is free. -/
def Stored.value {width : Nat} (f : Stored width) (unspecified : BitVec width) : BitVec width :=
  if f.written then f.bits else unspecified

/-- A field holding a value a command wrote. -/
def Stored.holding {width : Nat} (v : BitVec width) : Stored width := ⟨v, true⟩

/-- `ST[i].key` (R31). -/
def State.keyOf (s : State) (i : Fin 61) : BitVec 1 := (s.table[i]).key.value (Config.unwrittenKey i.val)

/-- `ST[i].left` (R31). -/
def State.leftOf (s : State) (i : Fin 61) : Byte := (s.table[i]).left.value (Config.unwrittenLeft i.val)

/-- `ST[i].right` (R31). -/
def State.rightOf (s : State) (i : Fin 61) : Byte := (s.table[i]).right.value (Config.unwrittenRight i.val)

/-- `ST[i].factor` (R31). -/
def State.factorOf (s : State) (i : Fin 61) : Byte := (s.table[i]).factor.value (Config.unwrittenFactor i.val)

/-- Write `key`, `left` and `right` of one entry as one update, `factor` kept (R66, R100). -/
def State.setWaves (s : State) (i : Fin 61) (key : BitVec 1) (wl wr : Byte) : State :=
  let e : SlotEntry := s.table[i]
  let e' := { e with key := Stored.holding key, left := Stored.holding wl, right := Stored.holding wr }
  { s with table := s.table.set i e' }

/-- Write `factor` of one entry, the other fields kept (R66, R102). -/
def State.setFactor (s : State) (i : Fin 61) (fac : Byte) : State :=
  let e : SlotEntry := s.table[i]
  let e' := { e with factor := Stored.holding fac }
  { s with table := s.table.set i e' }

/-- `raise Error(c)`: nothing but STATUS.ERR changes, and it only if it was 0 (R9, R214). -/
def State.raiseError (s : State) (c : ErrorCause) : State := { s with err := stickyError s.err c }

/-- Clear STATUS.ERR, the block's only recovery from an error (R194, R219). -/
def State.clearError (s : State) : State := { s with err := 0 }

/-- `STEP <- v` (R183). -/
def State.setPhaseStep (s : State) (v : BitVec 16) : State := { s with phaseStep := v }

/-- `SLOT <- i` (R185). -/
def State.setSlot (s : State) (i : Fin 61) : State := { s with slot := i }

/-- `COEF <- v` (R186). -/
def State.setCoef (s : State) (v : Byte) : State := { s with coef := v }

/-- `RDATA <- v` (R188). -/
def State.setRdata (s : State) (v : Word) : State := { s with rdata := v }

/-- `emit(v)`: one sample on the output port (R9, R41). -/
def State.emit (s : State) (v : Byte) : State := { s with emitted := s.emitted ++ [v] }

/-- The datapath at its empty state, all else kept (R196). -/
def State.restart (s : State) : State :=
  { s with phase := 0, int1 := 0, int2 := 0, raw := 128, out := 128, count := 0 }

/-- The reset input after power-on: every register at its power-on value; the slot table with its written record, the
parameters and the host's side kept; no sample emitted (R240, R241). -/
def State.applyReset (s : State) : State :=
  { s with err := 0, phase := 0, phaseStep := 0, slot := 0, coef := 0, raw := 128, out := 128, int1 := 0, int2 := 0,
           count := 0, rdata := 0 }

/-- PARAM: `{15'b0, WAVE_COUNT, 61}` (R30). -/
def State.param (s : State) : Word := 0#15 ++ BitVec.ofNat 9 s.waveCount ++ BitVec.ofNat 8 Config.slots

/-- A slot entry as READ gives it: `{7'b0, key, left, right, factor}` (R188). -/
def State.entryWord (s : State) (i : Fin 61) : Word :=
  0#7 ++ s.keyOf i ++ s.leftOf i ++ s.rightOf i ++ s.factorOf i

/-- The 32 bits READ gives of a register or a slot entry (R188). -/
def State.readSelected (s : State) : Selected → Word
  | .status => statusWord s.err
  | .phase => s.phase.zeroExtend 32
  | .phaseStep => s.phaseStep.zeroExtend 32
  | .slot => BitVec.ofNat 32 s.slot.val
  | .coef => s.coef.zeroExtend 32
  | .raw => s.raw.zeroExtend 32
  | .out => s.out.zeroExtend 32
  | .int1 => s.int1.signExtend 32
  | .int2 => s.int2.signExtend 32
  | .count => s.count
  | .param => s.param
  | .entry i => s.entryWord i

/-- The host's stream with its first input taken (R42, R68). -/
def State.takeInput (s : State) : State := { s with port := s.port.tail }

/-- The host's stream with one input put in front. -/
def State.sendFirst (s : State) (x : HostInput) : State := { s with port := x :: s.port }

end Sys2Proof.Machine
end

