-- ==== Sys2Proof/Machine/Control.lean ====
section
/-! DEFINITION. The control and status commands: NOP, SETSTEP, SETSLOT, SETCOEF, READ, CLRERR and SRST (R180 to R196). -/

namespace Sys2Proof.Machine

/-- NOP: no state changes (R180). -/
def execNop (s : State) : Host.Outcome State Fault Refusal := .next s

/-- SETSTEP: `STEP <- imm16` (R183). -/
def execSetstep (imm16 : BitVec 16) (s : State) : Host.Outcome State Fault Refusal := .next (s.setPhaseStep imm16)

/-- SETSLOT: `SLOT <- min(imm8, 60)` (R185). -/
def execSetslot (imm8 : Byte) (s : State) : Host.Outcome State Fault Refusal := .next (s.setSlot (clampedSlot imm8))

/-- SETCOEF: `COEF <- imm8` (R186). -/
def execSetcoef (imm8 : Byte) (s : State) : Host.Outcome State Fault Refusal := .next (s.setCoef imm8)

/-- The effect of READ: an unlisted selector raises ILLEGAL_CMD (R188). -/
def State.readInto (s : State) (sel : Byte) : State :=
  match selectedBy sel with
  | some x => s.setRdata (s.readSelected x)
  | none => s.raiseError .illegalCmd

/-- READ: copy one register or slot entry to RDATA (R188). -/
def execRead (sel : Byte) (s : State) : Host.Outcome State Fault Refusal := .next (s.readInto sel)

/-- CLRERR: `STATUS.ERR <- 0` (R194). -/
def execClrerr (s : State) : Host.Outcome State Fault Refusal := .next s.clearError

/-- SRST: restart the datapath, keeping the table and the control values (R196). -/
def execSrst (s : State) : Host.Outcome State Fault Refusal := .next s.restart

end Sys2Proof.Machine
end

