-- ==== Sys2Proof/Machine/Interpolator.lean ====
section
/-! DEFINITION. The slot-indexed lookup (R104, R105) and the waveform interpolator (R130 to R137), which TICK uses. -/

namespace Sys2Proof.Machine

/-- What the lookup gives TICK of a slot entry (R104). -/
structure Looked where
  left : Byte
  right : Byte
  factor : Byte
deriving DecidableEq, Repr

/-- `lookup()`: the entry SLOT selects; `key` is not used (R104). -/
def State.lookupSlot (s : State) : Looked := ⟨s.leftOf s.slot, s.rightOf s.slot, s.factorOf s.slot⟩

/-- The logical position `p = ph[15:9]`, 0..127 (R130). -/
def logicalPosition (ph : BitVec 16) : Nat := (ph.extractLsb' 9 7).toNat

/-- The stored index `k` of a logical position, 0..63 (R131). -/
def storedIndex (p : Nat) : Nat := if p < 64 then p else 127 - p

/-- Whether a logical position lies in the mirrored, inverted half (R131). -/
def invertedHalf (p : Nat) : Bool := decide (64 ≤ p)

/-- `invert(v) = 255 - v` (R132). -/
def invertByte (v : Byte) : Byte := 255 - v

/-- The ROM address of stored sample `k` of waveform `w` (R60, R105). -/
def sampleAddress (w : Byte) (k : Nat) : Nat := Config.waveLen * w.toNat + k

/-- The sample of waveform `w` at logical position `p`, inverted in the mirrored half (R133). -/
def State.waveSample (s : State) (w : Byte) (p : Nat) : Byte :=
  let a := s.romByte (sampleAddress w (storedIndex p))
  if invertedHalf p then invertByte a else a

/-- The linear blend `(sL * (256 - f) + sR * f) >> 8` (R135). -/
def blend (sL sR f : Byte) : Byte :=
  BitVec.ofNat 8 ((sL.toNat * (256 - f.toNat) + sR.toNat * f.toNat) >>> 8)

/-- `sample_at(ph)`: the whole interpolator (R137). -/
def State.sampleAt (s : State) (ph : BitVec 16) : Byte :=
  let e := s.lookupSlot
  let p := logicalPosition ph
  blend (s.waveSample e.left p) (s.waveSample e.right p) e.factor

end Sys2Proof.Machine
end

