-- ==== Sys2Proof/Machine/OscillatorFilter.lean ====
section
/-! DEFINITION. The phase accumulator (R150), the one-pole filter stage and its cascade (R160 to R164), the output stage
(R166) and the command TICK (R170). -/

namespace Sys2Proof.Machine

/-- The new integrator of `stage(I, x, c)` (R160). -/
def stageIntegrator (i x c : Int) : Int := sat16 (i + sat16 (c * (x - tdiv256 i)))

/-- `stage(I, x, c)`: the new integrator and the stage's output, taken after the update (R160). -/
def stage (i x c : Int) : Int × Int :=
  let i' := stageIntegrator i x c
  (i', tdiv256 i')

/-- The interpolator's output less the centre: `x = RAW - 128` (R164). -/
def centred (raw : Byte) : Int := (raw.toNat : Int) - 128

/-- `clamp(y2 + 128, 0, 255)` (R166). -/
def outputSample (y2 : Int) : Byte := BitVec.ofInt 8 (clampInt (y2 + 128) 0 255)

/-- The phase after one advance: `(PHASE + STEP) mod 65536` (R150). -/
def State.nextPhase (s : State) : BitVec 16 := s.phase + s.phaseStep

/-- The state after one TICK, step by step as R170 lists it. -/
def State.tick (s : State) : State :=
  let ph := s.nextPhase
  let raw := s.sampleAt ph
  let stage1 := stage s.int1.toInt (centred raw) (s.coef.toNat : Int)
  let stage2 := stage s.int2.toInt stage1.2 (s.coef.toNat : Int)
  let out := outputSample stage2.2
  { s with
    phase := ph
    raw := raw
    int1 := word16OfInt stage1.1
    int2 := word16OfInt stage2.1
    out := out
    count := s.count + 1 }.emit out

/-- TICK: produce one output sample (R170). -/
def execTick (s : State) : Host.Outcome State Fault Refusal := .next s.tick

end Sys2Proof.Machine
end

