-- ==== Sys2Proof/Machine/SlotTable.lean ====
section
/-! DEFINITION. The two commands that write the slot table: WSLOT (R100) and WFACT (R102). -/

namespace Sys2Proof.Machine

/-- The effect of WSLOT: the slot field is checked before the waveform indices (R100, R215). -/
def State.writeWaves (s : State) (slot : BitVec 6) (key : BitVec 1) (wl wr : Byte) : State :=
  match slotIndex slot with
  | none => s.raiseError .invalidFormat
  | some i =>
    if s.waveCount ≤ wl.toNat ∨ s.waveCount ≤ wr.toNat then s.raiseError .outOfRange
    else s.setWaves i key wl wr

/-- WSLOT: write the waveform references and the key mark of one entry (R100). -/
def execWslot (slot : BitVec 6) (key : BitVec 1) (wl wr : Byte) (s : State) : Host.Outcome State Fault Refusal :=
  .next (s.writeWaves slot key wl wr)

/-- The effect of WFACT (R102). -/
def State.writeFactor (s : State) (slot : BitVec 6) (fac : Byte) : State :=
  match slotIndex slot with
  | none => s.raiseError .invalidFormat
  | some i => s.setFactor i fac

/-- WFACT: write the blend factor of one entry (R102). -/
def execWfact (slot : BitVec 6) (fac : Byte) (s : State) : Host.Outcome State Fault Refusal :=
  .next (s.writeFactor slot fac)

end Sys2Proof.Machine
end

