-- ==== Sys2Proof/Machine/Dispatch.lean ====
section
/-! DEFINITION. The meaning of each command, one arm per constructor of `Instr` (R84, R90). -/

namespace Sys2Proof.Machine

/-- Perform a decoded command (R84, R85). -/
def exec (i : Instr) (s : State) : Host.Outcome State Fault Refusal :=
  match i with
  | .nop => Sys2Proof.Machine.execNop s
  | .tick => Sys2Proof.Machine.execTick s
  | .setstep imm16 => Sys2Proof.Machine.execSetstep imm16 s
  | .setslot imm8 => Sys2Proof.Machine.execSetslot imm8 s
  | .setcoef imm8 => Sys2Proof.Machine.execSetcoef imm8 s
  | .wslot slot key wl wr => Sys2Proof.Machine.execWslot slot key wl wr s
  | .wfact slot fac => Sys2Proof.Machine.execWfact slot fac s
  | .read sel => Sys2Proof.Machine.execRead sel s
  | .clrerr => Sys2Proof.Machine.execClrerr s
  | .srst => Sys2Proof.Machine.execSrst s

end Sys2Proof.Machine
end

