-- ==== Sys2Proof/Machine/CommandPort.lean ====
section
/-! DEFINITION. What the block does with one input of the host: a command word on the command port (R84, R85) or the
reset input (R240). -/

namespace Sys2Proof.Machine

/-- Execute one command word: a word that is not a command raises ILLEGAL_CMD and does nothing else (R85, R210). -/
def execWord (w : Word) (s : State) : Host.Outcome State Fault Refusal :=
  match decodeWord w with
  | .ok i => exec i s
  | .error _ => .next (s.raiseError .illegalCmd)

/-- Perform one input of the host (R230). -/
def performInput (x : HostInput) (s : State) : Host.Outcome State Fault Refusal :=
  match x with
  | .command w => execWord w s
  | .resetInput => .next s.applyReset

end Sys2Proof.Machine
end

