-- ==== Sys2Proof/Machine/Step.lean ====
section
/-! DEFINITION. One step of the block: it takes the host's next input and performs it (R68, R84, R230). -/

namespace Sys2Proof.Machine

/-- One step. With no input from the host the block is idle and keeps all its state (R224). -/
def step (s : State) : Host.Outcome State Fault Refusal :=
  match s.port with
  | [] => .next s
  | x :: _ => performInput x s.takeInput

/-- The state with the command of `nbits` bits `w`, in the opcode table's numbering, as the host's next input: the block
fetches nothing, it takes commands from the host (R42, R84; log 5). -/
def State.withFetchWord (s : State) (nbits w : Nat) : State := s.sendFirst (.command (tableWord nbits w))

end Sys2Proof.Machine
end

