-- ==== Sys2Proof/Machine/HostDecoder.lean ====
section
/-! DEFINITION. The host's side that the spec gives in full: the host reference decoder (R110 to R118), loading a decoded
table (R119), the pseudo-instructions (R95), the phase step of a frequency (R152) and the byte transport of commands
(R64). The block does not execute any of it (R4, R110). -/

namespace Sys2Proof.HostSide

/-- Why the host reference decoder fails (R112, R113). -/
inductive DecodeFailure where
  /-- InvalidFormat: no tag byte, no terminating pair, a position above 60, or slot 0 no key wave. -/
  | invalidFormat
  /-- OutOfRange: a waveform index at or above `WAVE_COUNT`. -/
  | outOfRange
deriving DecidableEq, Repr

/-- One entry `{key, left, right, factor}` of a decoded table (R110). -/
structure DecodedSlot where
  key : BitVec 1
  left : Byte
  right : Byte
  factor : Byte
deriving DecidableEq, Repr

/-- The key waves of a record: the waveform of each slot that is a key wave (`kw[0..60]`, R112). -/
abbrev KeyWaves := Vector (Option Byte) 61

/-- No slot is a key wave. -/
def noKeyWaves : KeyWaves := Vector.replicate 61 none

/-- The bytes of a list of pairs `(waveform_index, slot_position)`, as a record holds them (R111). -/
def pairBytes (pairs : List (Byte × Byte)) : List Byte := pairs.flatMap fun p => [p.1, p.2]

/-- Steps 1 and 2 after the tag byte: read pairs until the one at slot 60. Each pair is checked for its position, then
for its waveform index; a later pair at a position replaces the earlier one. `pos` counts the bytes read (R112). -/
def readPairs (waveCount : Nat) (kw : KeyWaves) (pos : Nat) : List Byte → Except DecodeFailure (KeyWaves × Nat)
  | w :: s :: rest =>
    if h : s.toNat < 61 then
      if waveCount ≤ w.toNat then .error .outOfRange
      else if s.toNat = 60 then .ok (kw.set s.toNat (some w), pos + 2)
      else readPairs waveCount (kw.set s.toNat (some w)) (pos + 2) rest
    else .error .invalidFormat
  | _ => .error .invalidFormat

/-- The waveform of slot `j` if it is a key wave. -/
def keyWaveAt (kw : KeyWaves) (j : Nat) : Option Byte := if h : j < 61 then kw[j] else none

/-- The left key of slot `i`: the last key slot at or before it (R114). -/
def leftKey (kw : KeyWaves) : Nat → Nat
  | 0 => 0
  | i + 1 => if (keyWaveAt kw (i + 1)).isSome then i + 1 else leftKey kw i

/-- The least key slot among the `n` slots from `j` up, if there is one. -/
def firstKeyFrom (kw : KeyWaves) (j : Nat) : Nat → Option Nat
  | 0 => none
  | n + 1 => if (keyWaveAt kw j).isSome then some j else firstKeyFrom kw (j + 1) n

/-- The right key that belongs to the left key `l`: the next key slot, or `l` itself if there is none (R114). -/
def rightKey (kw : KeyWaves) (l : Nat) : Nat := (firstKeyFrom kw (l + 1) (60 - l)).getD l

/-- The factor `((65535 div dt) * dl) >> 8` (R114). -/
def slotFactor (dt dl : Nat) : Byte := BitVec.ofNat 8 (((65535 / dt) * dl) >>> 8)

/-- Steps 3 and 4 for one slot (R114). -/
def fillSlot (kw : KeyWaves) (i : Nat) : DecodedSlot :=
  match keyWaveAt kw i with
  | some w => ⟨1, w, w, 0⟩
  | none =>
    let l := leftKey kw i
    let r := rightKey kw l
    ⟨0, (keyWaveAt kw l).getD 0, (keyWaveAt kw r).getD 0, slotFactor (r - l) (i - l)⟩

/-- A decoded wavetable of 61 entries (R110). -/
abbrev DecodedTable := Vector DecodedSlot 61

/-- The 61 entries of the table (R114). -/
def fillTable (kw : KeyWaves) : DecodedTable := Vector.ofFn fun i => fillSlot kw i.val

/-- `decode(buf) -> (T, consumed)` (R110 to R116). -/
def decodeRecord (waveCount : Nat) (buf : List Byte) : Except DecodeFailure (DecodedTable × Nat) :=
  match buf with
  | [] => .error .invalidFormat
  | _ :: rest =>
    match readPairs waveCount noKeyWaves 1 rest with
    | .error e => .error e
    | .ok (kw, pos) => if (keyWaveAt kw 0).isSome then .ok (fillTable kw, pos) else .error .invalidFormat

/-- `decode_nth(buf, n)`: the table of record `n` of a buffer of records, and the bytes all `n + 1` consumed (R117). -/
def decodeNth (waveCount : Nat) (buf : List Byte) : Nat → Except DecodeFailure (DecodedTable × Nat)
  | 0 => decodeRecord waveCount buf
  | n + 1 =>
    match decodeRecord waveCount buf with
    | .error e => .error e
    | .ok (_, used) =>
      match decodeNth waveCount (buf.drop used) n with
      | .error e => .error e
      | .ok (t, more) => .ok (t, used + more)

/-- `ldslot s, key, wl, wr, fac` (R95). -/
def ldslot (s : BitVec 6) (t : DecodedSlot) : List Instr := [.wslot s t.key t.left t.right, .wfact s t.factor]

/-- `keyslot s, w` (R95). -/
def keyslot (s : BitVec 6) (w : Byte) : List Instr := [.wslot s 1 w w, .wfact s 0]

/-- `tickn n` (R95). -/
def tickn (n : Nat) : List Instr := List.replicate n .tick

/-- `rdslot s`: READ with selector `0x40 + s` (R95). DESIGN CHOICE (log 11): safe, `s` has the width of a `slot` field,
since R95 gives it no field of its own. -/
def rdslot (s : BitVec 6) : List Instr := [.read (0x40 + s.zeroExtend 8)]

/-- The commands that load the entries of the slots of `order`, one slot after another (R119). -/
def loadSlots (table : DecodedTable) (order : List (Fin 61)) : List Instr :=
  order.flatMap fun i => ldslot (BitVec.ofNat 6 i.val) table[i]

/-- The commands that load a whole decoded table, slots 0 to 60 in turn (R119). -/
def loadTable (table : DecodedTable) : List Instr := loadSlots table (List.finRange 61)

/-- `round(65536 * frequency / sample_rate)` for the frequency `num / den`, halves rounded up; none when the rounded step
does not fit 0..65535, or for a zero sample rate or denominator, which the host must not use (R152, I9). -/
def phaseStepOf (num den sampleRate : Nat) : Option (BitVec 16) :=
  let d := den * sampleRate
  if d = 0 then none
  else
    let v := (2 * (65536 * num) + d) / (2 * d)
    if v < 65536 then some (BitVec.ofNat 16 v) else none

/-- A command stream on a byte transport (R64). -/
def transported (is : List Instr) : List Byte := is.flatMap encodeBytes

end Sys2Proof.HostSide
end

