-- ==== Sys2Proof/Machine/Assembler.lean ====
section
/-! DEFINITION. The assembly language of R94 and R95, one line at a time: a lowercase mnemonic, comma-separated operands,
numbers in decimal or `0x` hexadecimal, comments from `;` on. The block never sees it. -/

namespace Sys2Proof.HostSide

/-- Why the assembler refuses a line. -/
inductive AsmFailure where
  /-- The first word is no mnemonic or pseudo-instruction. -/
  | unknownMnemonic
  /-- The operands are not as many as the mnemonic takes. -/
  | operandCount
  /-- An operand is not a number or a register name. -/
  | badOperand
  /-- An operand does not fit its field (R94). -/
  | doesNotFit
deriving DecidableEq, Repr

/-- A blank between the parts of a line. -/
def isBlank (c : Char) : Bool := c = ' ' || c = '\t' || c = '\r' || c = '\n'

/-- A line without its comment (R94). -/
def stripComment (l : List Char) : List Char := l.takeWhile (fun c => c != ';')

/-- Text without the blanks at its ends. -/
def trimBlanks (l : List Char) : List Char := ((l.dropWhile isBlank).reverse.dropWhile isBlank).reverse

/-- The comma-separated parts of a text; `part` holds the current one, last character first. -/
def commaParts (part : List Char) : List Char → List (List Char)
  | [] => [part.reverse]
  | c :: rest => if c = ',' then part.reverse :: commaParts [] rest else commaParts (c :: part) rest

/-- The value of one digit in a base of at most 16. -/
def digitValue (base : Nat) (c : Char) : Option Nat :=
  let n := c.toNat
  let v := if 48 ≤ n ∧ n ≤ 57 then n - 48 else if 97 ≤ n ∧ n ≤ 102 then n - 87 else if 65 ≤ n ∧ n ≤ 70 then n - 55 else 16
  if v < base then some v else none

/-- The value of a digit string that follows the value `acc`. -/
def digitsValue (base acc : Nat) : List Char → Option Nat
  | [] => some acc
  | c :: rest =>
    match digitValue base c with
    | some d => digitsValue base (acc * base + d) rest
    | none => none

/-- A number in decimal or `0x` hexadecimal (R94). -/
def numberOf : List Char → Option Nat
  | [] => none
  | '0' :: 'x' :: c :: rest => digitsValue 16 0 (c :: rest)
  | c :: rest => digitsValue 10 0 (c :: rest)

/-- The register names `read` takes (R94). -/
def registerNames : List (List Char × Nat) :=
  [ ("status".toList, 0x00), ("phase".toList, 0x01), ("step".toList, 0x02), ("slot".toList, 0x03),
    ("coef".toList, 0x04), ("raw".toList, 0x05), ("out".toList, 0x06), ("int1".toList, 0x07),
    ("int2".toList, 0x08), ("count".toList, 0x09), ("param".toList, 0x0A) ]

/-- The selector of a slot entry's name `st<s>`: `0x40 + s` (R94). -/
def entryName : List Char → Option Nat
  | 's' :: 't' :: c :: rest =>
    match digitsValue 10 0 (c :: rest) with
    | some s => if s ≤ 60 then some (0x40 + s) else none
    | none => none
  | _ => none

/-- The selector operand of `read`: a register name or a number (R94). -/
def selectorOperand (l : List Char) : Option Nat :=
  match registerNames.lookup l with
  | some n => some n
  | none =>
    match entryName l with
    | some n => some n
    | none => numberOf l

/-- The operands of a line as numbers; `read` also takes names. -/
def operandValues (value : List Char → Option Nat) : List (List Char) → Option (List Nat)
  | [] => some []
  | l :: rest =>
    match value (trimBlanks l), operandValues value rest with
    | some n, some ns => some (n :: ns)
    | _, _ => none

/-- The commands of a mnemonic and its operand values; every operand must fit its field (R94, R95). The slot operands
of the pseudo-instructions are held to the 6 bits of a `slot` field. For `rdslot` that is a DESIGN CHOICE (log 11), safe:
R95 gives its operand no field of its own, and `0x40 + s` would fit `sel` up to `s = 191`. -/
def assembleValues (name : List Char) (args : List Nat) : Except AsmFailure (List Instr) :=
  let fits (ok : Bool) (is : List Instr) : Except AsmFailure (List Instr) := if ok then .ok is else .error .doesNotFit
  if name = "nop".toList then
    match args with | [] => .ok [.nop] | _ => .error .operandCount
  else if name = "tick".toList then
    match args with | [] => .ok [.tick] | _ => .error .operandCount
  else if name = "setstep".toList then
    match args with
    | [v] => fits (v < 65536) [.setstep (BitVec.ofNat 16 v)]
    | _ => .error .operandCount
  else if name = "setslot".toList then
    match args with
    | [v] => fits (v < 256) [.setslot (BitVec.ofNat 8 v)]
    | _ => .error .operandCount
  else if name = "setcoef".toList then
    match args with
    | [v] => fits (v < 256) [.setcoef (BitVec.ofNat 8 v)]
    | _ => .error .operandCount
  else if name = "wslot".toList then
    match args with
    | [s, k, l, r] => fits (s < 64 && k < 2 && l < 256 && r < 256)
        [.wslot (BitVec.ofNat 6 s) (BitVec.ofNat 1 k) (BitVec.ofNat 8 l) (BitVec.ofNat 8 r)]
    | _ => .error .operandCount
  else if name = "wfact".toList then
    match args with
    | [s, f] => fits (s < 64 && f < 256) [.wfact (BitVec.ofNat 6 s) (BitVec.ofNat 8 f)]
    | _ => .error .operandCount
  else if name = "read".toList then
    match args with
    | [v] => fits (v < 256) [.read (BitVec.ofNat 8 v)]
    | _ => .error .operandCount
  else if name = "clrerr".toList then
    match args with | [] => .ok [.clrerr] | _ => .error .operandCount
  else if name = "srst".toList then
    match args with | [] => .ok [.srst] | _ => .error .operandCount
  else if name = "ldslot".toList then
    match args with
    | [s, k, l, r, f] => fits (s < 64 && k < 2 && l < 256 && r < 256 && f < 256)
        (ldslot (BitVec.ofNat 6 s) ⟨BitVec.ofNat 1 k, BitVec.ofNat 8 l, BitVec.ofNat 8 r, BitVec.ofNat 8 f⟩)
    | _ => .error .operandCount
  else if name = "keyslot".toList then
    match args with
    | [s, w] => fits (s < 64 && w < 256) (keyslot (BitVec.ofNat 6 s) (BitVec.ofNat 8 w))
    | _ => .error .operandCount
  else if name = "tickn".toList then
    match args with
    | [n] => fits (1 ≤ n) (tickn n)
    | _ => .error .operandCount
  else if name = "rdslot".toList then
    match args with
    | [s] => fits (s < 64) (rdslot (BitVec.ofNat 6 s))
    | _ => .error .operandCount
  else .error .unknownMnemonic

/-- The commands of one line of assembly text; a blank line has none (R94). -/
def assembleLine (line : List Char) : Except AsmFailure (List Instr) :=
  let text := trimBlanks (stripComment line)
  if text = [] then .ok []
  else
    let name := text.takeWhile (fun c => !isBlank c)
    let operandText := trimBlanks (text.dropWhile (fun c => !isBlank c))
    let parts := if operandText = [] then [] else commaParts [] operandText
    let value := if name = "read".toList then selectorOperand else numberOf
    match operandValues value parts with
    | some args => assembleValues name args
    | none => .error .badOperand

/-- The command words of one line of assembly text. -/
def assembleWords (line : List Char) : Except AsmFailure (List Word) :=
  match assembleLine line with
  | .ok is => .ok (is.map encode)
  | .error e => .error e

end Sys2Proof.HostSide
end

