-- ==== Sys2Proof/Safety.lean ====
section
/-! DEFINITION. What the claims say of states and of runs: the invariant the block keeps (R23, R25, R33), when a slot is
ready to be played (R245), performing a list of commands (R68, R256), and what an observer of the output sees. -/

namespace Sys2Proof.Machine

/-- A waveform reference that a command wrote names a waveform of the ROM (R33). -/
def Stored.namesWave (waveCount : Nat) (f : Stored 8) : Prop := f.written = true → f.bits.toNat < waveCount

/-- What the block always keeps: the integrators are never -32768 (R25), every written waveform reference is in the ROM
(R33), `WAVE_COUNT` is in 1..256 (R6), and the ROM is in canonical form and lists nothing beyond its end (R35, R60). -/
structure State.Inv (s : State) : Prop where
  int1_saturated : -32767 ≤ s.int1.toInt
  int2_saturated : -32767 ≤ s.int2.toInt
  left_in_rom : ∀ i : Fin 61, (s.table[i]).left.namesWave s.waveCount
  right_in_rom : ∀ i : Fin 61, (s.table[i]).right.namesWave s.waveCount
  wave_count_range : 1 ≤ s.waveCount ∧ s.waveCount ≤ 256
  rom_wf : Memory.wf s.rom
  rom_in_range : ∀ c ∈ s.rom, c.1 < Config.waveLen * s.waveCount

/-- Every field TICK reads of the selected entry has been written since power-on (R245). -/
def State.slotReady (s : State) (i : Fin 61) : Prop :=
  (s.table[i]).left.written = true ∧ (s.table[i]).right.written = true ∧ (s.table[i]).factor.written = true

/-- Perform commands one at a time in order, each complete before the next (R68). -/
def execAll : List Instr → State → Host.Outcome State Fault Refusal
  | [], s => .next s
  | i :: rest, s =>
    match exec i s with
    | .next t => execAll rest t
    | .fault r => .fault r
    | .refused r => .refused r

/-- Perform command words one at a time in order, a word that is no command among them too (R68, R85). -/
def execWords : List Word → State → Host.Outcome State Fault Refusal
  | [], s => .next s
  | w :: rest, s =>
    match execWord w s with
    | .next t => execWords rest t
    | .fault r => .fault r
    | .refused r => .refused r

/-- The state with a list of command words as the host's stream (R230). -/
def State.sending (s : State) (ws : List Word) : State := { s with port := ws.map HostInput.command }

/-- The two states agree on everything the sample path reads: the datapath registers, the control values, the slot table
without the key marks, the ROM and `WAVE_COUNT` (R32, R104, R170). They may differ in ERR, RDATA, COUNT, RAW and OUT, the
key marks, the samples already emitted and the host's stream. -/
structure SamePath (s t : State) : Prop where
  phase : s.phase = t.phase
  phaseStep : s.phaseStep = t.phaseStep
  slot : s.slot = t.slot
  coef : s.coef = t.coef
  int1 : s.int1 = t.int1
  int2 : s.int2 = t.int2
  left : ∀ i : Fin 61, s.leftOf i = t.leftOf i
  right : ∀ i : Fin 61, s.rightOf i = t.rightOf i
  factor : ∀ i : Fin 61, s.factorOf i = t.factorOf i
  rom : s.rom = t.rom
  waveCount : s.waveCount = t.waveCount

end Sys2Proof.Machine
end

