-- ==== Sys2Proof/WellFormed.lean ====
section
/-! DEFINITION. Which commands have all their field values in range (R93). The field widths are in the types of
`Instr`. What is left to check is the slot index of WSLOT and WFACT, the selector of READ and, for a given number of
waveforms, the waveform indices of WSLOT. An ill-formed command still encodes, decodes and executes: it raises an
error and does nothing else (R93, R214). -/

namespace Sys2Proof

/-- A slot field names a slot: 0..60 (R62, R81). -/
def slotInTable (slot : BitVec 6) : Bool := decide (slot.toNat < Config.slots)

/-- A selector is one of those READ lists: 0x00..0x0A or 0x40..0x7C (R63, R188). -/
def selectorListed (sel : Byte) : Bool :=
  decide (sel.toNat ≤ 0x0A) || (decide (0x40 ≤ sel.toNat) && decide (sel.toNat ≤ 0x7C))

/-- A waveform index names a waveform of a ROM of `waveCount` waveforms (R93, R212). -/
def waveInRom (waveCount : Nat) (w : Byte) : Bool := decide (w.toNat < waveCount)

/-- Every field value of the command is in range on a block with `waveCount` waveforms (R93). -/
def Instr.wellFormed (waveCount : Nat) : Instr → Bool
  | .nop => true
  | .tick => true
  | .setstep _ => true
  | .setslot _ => true
  | .setcoef _ => true
  | .wslot slot _ wl wr => slotInTable slot && waveInRom waveCount wl && waveInRom waveCount wr
  | .wfact slot _ => slotInTable slot
  | .read sel => selectorListed sel
  | .clrerr => true
  | .srst => true

end Sys2Proof
end

