-- ==== Sys2Proof/Certificates/Slice0/Obligations.lean ====
section
/-! DEFINITION. The statements about the block, each the formal text of rules of the spec. The helpers of
`Sys2Proof.Claims` say the spec's own numbers and words once; they use none of the machine's arithmetic and none of its
decoder. -/

namespace Sys2Proof.Claims

open Sys2Proof.Machine

/-- The state after an error of code `c`: STATUS.ERR becomes `c` if it was 0, and all else is as before (R214). -/
def withError (s : State) (c : BitVec 2) : State := { s with err := if s.err = 0 then c else s.err }

/-- The words of an opcode are the command `build` where `w & mask = pattern`, and every other word of that opcode raises
ILLEGAL_CMD (R90, R91). -/
def EncodedAs (pattern mask : Word) (build : Word → Instr) : Prop :=
  ∀ w : Word, w.toNat / 2 ^ 28 = pattern.toNat / 2 ^ 28 →
    (w &&& mask = pattern → decodeWord w = .ok (build w)) ∧
    (w &&& mask ≠ pattern → ∀ s, execWord w s = .next (withError s 1))

/-- Saturation to -32767..32767 (R8). -/
def saturated (v : Int) : Int := max (-32767) (min 32767 v)

/-- One filter stage's new integrator, from R160's formula: `I`, `x`, `c`. -/
def newIntegrator (i x c : Int) : Int := saturated (i + saturated (c * (x - Int.tdiv i 256)))

/-- The ROM byte that the interpolator gives of waveform `w` at a phase: fetched at `64 * w + k` and, in the second half
of the cycle, taken from 255 (R130 to R133). -/
def mirroredSample (s : State) (w : Byte) (ph : Nat) : Nat :=
  let p := ph / 512
  if p < 64 then (s.romByte (64 * w.toNat + p)).toNat else 255 - (s.romByte (64 * w.toNat + (127 - p))).toNat

/-- The interpolator's output at a phase, as a number (R135, R137). -/
def blendedSample (s : State) (ph : Nat) : Nat :=
  let f := (s.factorOf s.slot).toNat
  (mirroredSample s (s.leftOf s.slot) ph * (256 - f) + mirroredSample s (s.rightOf s.slot) ph * f) / 256

/-- What READ puts in RDATA for a selector, as a number below 2^32; none for a selector R188 does not list. -/
def readValue (s : State) (sel : Nat) : Option Nat :=
  if sel = 0x00 then some s.err.toNat
  else if sel = 0x01 then some s.phase.toNat
  else if sel = 0x02 then some s.phaseStep.toNat
  else if sel = 0x03 then some s.slot.val
  else if sel = 0x04 then some s.coef.toNat
  else if sel = 0x05 then some s.raw.toNat
  else if sel = 0x06 then some s.out.toNat
  else if sel = 0x07 then some (s.int1.toInt % 2 ^ 32).toNat
  else if sel = 0x08 then some (s.int2.toInt % 2 ^ 32).toNat
  else if sel = 0x09 then some s.count.toNat
  else if sel = 0x0A then some (61 + 2 ^ 8 * s.waveCount)
  else if h : 0x40 ≤ sel ∧ sel - 0x40 < 61 then
    let i : Fin 61 := ⟨sel - 0x40, h.2⟩
    some ((s.keyOf i).toNat * 2 ^ 24 + (s.leftOf i).toNat * 2 ^ 16 + (s.rightOf i).toNat * 2 ^ 8 + (s.factorOf i).toNat)
  else none

/-- The `match` and `mask` values of the ten rows of the opcode map (R90). -/
def opcodeRows : List (Word × Word) :=
  [ (0x00000000#32, 0xFFFFFFFF#32), (0x10000000#32, 0xFFFFFFFF#32), (0x20000000#32, 0xFFFF0000#32),
    (0x30000000#32, 0xFFFFFF00#32), (0x40000000#32, 0xFFFFFF00#32), (0x50000000#32, 0xF03E0000#32),
    (0x60000000#32, 0xF03FFF00#32), (0x70000000#32, 0xFFFFFF00#32), (0x80000000#32, 0xFFFFFFFF#32),
    (0x90000000#32, 0xFFFFFFFF#32) ]

/-- The error one command word raises on a block with `waveCount` waveforms, from the word's bits, in the order of R215: 1 for
a word that matches no row, 2 for WSLOT or WFACT with a slot field above 60, 3 for WSLOT with a waveform index outside the
ROM, 1 for READ with an unlisted selector (R210 to R212). -/
def errorOf (waveCount : Nat) (w : Word) : Option (BitVec 2) :=
  let op := w.toNat / 2 ^ 28
  let slot := w.toNat / 2 ^ 22 % 2 ^ 6
  let wl := w.toNat / 2 ^ 8 % 2 ^ 8
  let low := w.toNat % 2 ^ 8
  if opcodeRows.all (fun row => decide (w &&& row.2 ≠ row.1)) then some 1
  else if (op = 5 ∨ op = 6) ∧ 60 < slot then some 2
  else if op = 5 ∧ (waveCount ≤ wl ∨ waveCount ≤ low) then some 3
  else if op = 7 ∧ 0x0A < low ∧ (low < 0x40 ∨ 0x7C < low) then some 1
  else none

/-- What a TICK does, the interpolator's output at a phase given: the seven values it writes as numbers, and that nothing
else changes (R150, R160, R164, R166, R170). -/
def TickEffect (sampleAt : Nat → Nat) (s t : State) : Prop :=
  t.phase.toNat = (s.phase.toNat + s.phaseStep.toNat) % 65536 ∧
  t.raw.toNat = sampleAt t.phase.toNat ∧
  t.int1.toInt = newIntegrator s.int1.toInt (t.raw.toNat - 128) s.coef.toNat ∧
  t.int2.toInt = newIntegrator s.int2.toInt (Int.tdiv t.int1.toInt 256) s.coef.toNat ∧
  (t.out.toNat : Int) = max 0 (min 255 (Int.tdiv t.int2.toInt 256 + 128)) ∧
  t.count.toNat = (s.count.toNat + 1) % 2 ^ 32 ∧
  t.emitted = s.emitted ++ [t.out] ∧
  t = { s with phase := t.phase, raw := t.raw, int1 := t.int1, int2 := t.int2, out := t.out, count := t.count,
               emitted := t.emitted }

/-- The interpolator's output at a phase for the selected entry's stored bits and the bytes the ROM holds (R131 to R135). -/
def storedSample (s : State) (ph : Nat) : Nat :=
  let e : SlotEntry := s.table[s.slot]
  let p := ph / 512
  let k := if p < 64 then p else 127 - p
  let sample := fun (w : Byte) =>
    let a := (Memory.read s.rom (64 * w.toNat + k)).toNat
    if p < 64 then a else 255 - a
  (sample e.left.bits * (256 - e.factor.bits.toNat) + sample e.right.bits * e.factor.bits.toNat) / 256

/-- Pairs `(waveform_index, slot_position)` that the decoder takes and reads on after: each waveform is in the ROM and each
position is a slot before the terminating one (R112). -/
def GoodPairs (waveCount : Nat) (pairs : List (Byte × Byte)) : Prop :=
  ∀ q ∈ pairs, q.1.toNat < waveCount ∧ q.2.toNat < 60

/-- The last of the pairs at position `i` names the waveform `w` (R112). -/
def LastPairAt (pairs : List (Byte × Byte)) (i : Fin 61) (w : Byte) : Prop :=
  ∃ before after, pairs = before ++ (w, BitVec.ofNat 8 i.val) :: after ∧ ∀ q ∈ after, q.2 ≠ BitVec.ofNat 8 i.val

/-- A slot entry of a state holds, in written fields, the entry of a decoded table. -/
def HoldsEntry (e : SlotEntry) (d : HostSide.DecodedSlot) : Prop :=
  e = ⟨⟨d.key, true⟩, ⟨d.left, true⟩, ⟨d.right, true⟩, ⟨d.factor, true⟩⟩

end Sys2Proof.Claims

open Sys2Proof Sys2Proof.Machine Sys2Proof.HostSide Sys2Proof.Claims

/- Encoding -/

/-- R82, R83: every command decodes from its own word, alone and at the front of a byte stream, with every operand at
every value. -/
def Obligations.DecodeOfEncodeIsTheCommand : Prop :=
  ∀ (i : Instr) (rest : List Byte),
    decodeWord (encode i) = .ok i ∧ decodeBytes (encodeBytes i ++ rest) = .ok (i, rest)

/-- R80, R90: no two words decode to one command: the word of the command a word decodes to is that word. -/
def Obligations.EncodeOfDecodeIsTheWord : Prop :=
  ∀ (w : Word) (i : Instr), decodeWord w = .ok i → encode i = w

/-- R90: each row of the opcode map, with the fields of R81; a word that matches no row raises ILLEGAL_CMD. -/
def Obligations.OpcodeMapDecidesTheCommand : Prop :=
  ∀ w : Word,
    (w &&& 0xFFFFFFFF = 0x00000000 → decodeWord w = .ok .nop) ∧
    (w &&& 0xFFFFFFFF = 0x10000000 → decodeWord w = .ok .tick) ∧
    (w &&& 0xFFFF0000 = 0x20000000 → decodeWord w = .ok (.setstep (w.extractLsb' 0 16))) ∧
    (w &&& 0xFFFFFF00 = 0x30000000 → decodeWord w = .ok (.setslot (w.extractLsb' 0 8))) ∧
    (w &&& 0xFFFFFF00 = 0x40000000 → decodeWord w = .ok (.setcoef (w.extractLsb' 0 8))) ∧
    (w &&& 0xF03E0000 = 0x50000000 → decodeWord w =
      .ok (.wslot (w.extractLsb' 22 6) (w.extractLsb' 16 1) (w.extractLsb' 8 8) (w.extractLsb' 0 8))) ∧
    (w &&& 0xF03FFF00 = 0x60000000 → decodeWord w = .ok (.wfact (w.extractLsb' 22 6) (w.extractLsb' 0 8))) ∧
    (w &&& 0xFFFFFF00 = 0x70000000 → decodeWord w = .ok (.read (w.extractLsb' 0 8))) ∧
    (w &&& 0xFFFFFFFF = 0x80000000 → decodeWord w = .ok .clrerr) ∧
    (w &&& 0xFFFFFFFF = 0x90000000 → decodeWord w = .ok .srst) ∧
    ((∀ row ∈ opcodeRows, w &&& row.2 ≠ row.1) → ∀ s, execWord w s = .next (withError s 1))

/-- R96 (the spec's own inference): the nine encoding examples: the word the assembler gives for each line, and the
command that word decodes to. -/
def Obligations.EncodingExamples : Prop :=
  assembleWords "wslot 0, 1, 5, 5".toList = .ok [0x50010505] ∧ decodeWord 0x50010505 = .ok (.wslot 0 1 5 5) ∧
  assembleWords "wslot 30, 0, 5, 10".toList = .ok [0x5780050A] ∧ decodeWord 0x5780050A = .ok (.wslot 30 0 5 10) ∧
  assembleWords "wslot 60, 1, 10, 10".toList = .ok [0x5F010A0A] ∧ decodeWord 0x5F010A0A = .ok (.wslot 60 1 10 10) ∧
  assembleWords "wfact 30, 127".toList = .ok [0x6780007F] ∧ decodeWord 0x6780007F = .ok (.wfact 30 127) ∧
  assembleWords "setstep 0x4000".toList = .ok [0x20004000] ∧ decodeWord 0x20004000 = .ok (.setstep 0x4000) ∧
  assembleWords "setslot 30".toList = .ok [0x3000001E] ∧ decodeWord 0x3000001E = .ok (.setslot 30) ∧
  assembleWords "setcoef 255".toList = .ok [0x400000FF] ∧ decodeWord 0x400000FF = .ok (.setcoef 255) ∧
  assembleWords "read st30".toList = .ok [0x7000005E] ∧ decodeWord 0x7000005E = .ok (.read 0x5E) ∧
  assembleWords "read out".toList = .ok [0x70000006] ∧ decodeWord 0x70000006 = .ok (.read 0x06)

/-- R91: a word of opcode 0x0 to 0x9 with a 1 in a should-be-zero position of its format (R82) raises ILLEGAL_CMD and is
not executed. -/
def Obligations.ShouldBeZeroBitRaisesIllegalCmd : Prop :=
  ∀ (w : Word) (s : State),
    (w.extractLsb' 28 4 ∈ [0x0#4, 0x1#4, 0x8#4, 0x9#4] ∧ w.extractLsb' 0 28 ≠ 0) ∨
    (w.extractLsb' 28 4 = 0x2#4 ∧ w.extractLsb' 16 12 ≠ 0) ∨
    (w.extractLsb' 28 4 ∈ [0x3#4, 0x4#4, 0x7#4] ∧ w.extractLsb' 8 20 ≠ 0) ∨
    (w.extractLsb' 28 4 = 0x5#4 ∧ w.extractLsb' 17 5 ≠ 0) ∨
    (w.extractLsb' 28 4 = 0x6#4 ∧ w.extractLsb' 8 14 ≠ 0) →
    execWord w s = .next (withError s 1)

/-- R92: every word of a reserved opcode raises ILLEGAL_CMD, and the only word that does nothing in every state is the NOP
word 0. -/
def Obligations.ReservedOpcodesAreIllegalAndOnlyNopIsIdle : Prop :=
  (∀ (w : Word) (s : State), 10 ≤ (w.extractLsb' 28 4).toNat → execWord w s = .next (withError s 1)) ∧
  (∀ w : Word, (∀ s : State, execWord w s = .next s) ↔ w = 0)

/-- R94, R95: the assembler on the fieldless commands, on a comment, on the pseudo-instructions, and on operands that do
not fit their fields. -/
def Obligations.AssemblerExpandsAndRefuses : Prop :=
  assembleWords "nop".toList = .ok [0x00000000] ∧ assembleWords "tick ; one sample".toList = .ok [0x10000000] ∧
  assembleWords "clrerr".toList = .ok [0x80000000] ∧ assembleWords "srst".toList = .ok [0x90000000] ∧
  assembleWords "ldslot 3, 1, 2, 3, 200".toList = .ok [0x50C10203, 0x60C000C8] ∧
  assembleWords "keyslot 0, 5".toList = .ok [0x50010505, 0x60000000] ∧
  assembleWords "tickn 2".toList = .ok [0x10000000, 0x10000000] ∧ assembleWords "rdslot 30".toList = .ok [0x7000005E] ∧
  assembleWords "setslot 256".toList = .error .doesNotFit ∧ assembleWords "wslot 64, 0, 0, 0".toList = .error .doesNotFit

/-- R64: a byte transport of a word is little-endian, byte 0 holding bits [7:0], and the decoder of a byte stream reads it
so. -/
def Obligations.ByteTransportIsLittleEndian : Prop :=
  ∀ (w : Word) (rest : List Byte),
    wordBytes w = [w.extractLsb' 0 8, w.extractLsb' 8 8, w.extractLsb' 16 8, w.extractLsb' 24 8] ∧
    (∀ i, decodeWord w = .ok i → decodeBytes (wordBytes w ++ rest) = .ok (i, rest)) ∧
    (∀ e, decodeWord w = .error e → decodeBytes (wordBytes w ++ rest) = .error e)

/- Steps and runs -/

/-- R84, R85: when the host's next input is a word that decodes to a command, the step is exec of that command at the
state with the input taken; a word that is no command raises ILLEGAL_CMD; with no input the block keeps its state. -/
def Obligations.StepRunsTheDecodedCommand : Prop :=
  ∀ (s : State) (w : Word) (rest : List HostInput),
    (s.port = .command w :: rest →
      (∀ i, decodeWord w = .ok i → step s = exec i { s with port := rest }) ∧
      (∀ e, decodeWord w = .error e → step s = .next (withError { s with port := rest } 1))) ∧
    (s.port = [] → step s = .next s)

/-- R213, R216, R256: nothing stops the block: every step from every state answers a next state.
That a command which reads a field never written completes, with a free value, is the model's choice (log 3). -/
def Obligations.EveryStepAnswersANextState : Prop :=
  ∀ s : State, ∃ t, step s = .next t

/-- R68: a stream of command words runs one at a time in the host's order, each complete before the next: the machine's
run over the stream is the execution of its words one after another, and, for the words of commands, of the commands. -/
def Obligations.RunOfAStreamIsItsCommandsInOrder : Prop :=
  (∀ (ws : List Word) (s : State),
    Host.Core.run Sys2Proof.core ws.length (s.sending ws) = execWords ws { s with port := [] }) ∧
  (∀ (is : List Instr) (s : State), execWords (is.map encode) s = execAll is s)

/-- R20's column "written by", for the commands: which register each command may change. ROM and `WAVE_COUNT` are never
changed, and the host's stream is not touched by a command. -/
def Obligations.EachRegisterIsWrittenOnlyByItsCommands : Prop :=
  ∀ (i : Instr) (s t : State), exec i s = .next t →
    (i ≠ .tick → i ≠ .srst → t.phase = s.phase ∧ t.raw = s.raw ∧ t.out = s.out ∧ t.int1 = s.int1 ∧ t.int2 = s.int2 ∧
      t.count = s.count) ∧
    ((∀ v, i ≠ .setstep v) → t.phaseStep = s.phaseStep) ∧
    ((∀ v, i ≠ .setslot v) → t.slot = s.slot) ∧
    ((∀ v, i ≠ .setcoef v) → t.coef = s.coef) ∧
    ((∀ v, i ≠ .read v) → t.rdata = s.rdata) ∧
    ((∀ a b c d, i ≠ .wslot a b c d) → (∀ a b, i ≠ .wfact a b) → t.table = s.table) ∧
    (i ≠ .tick → t.emitted = s.emitted) ∧
    (i ≠ .clrerr → (∀ a b c d, i ≠ .wslot a b c d) → (∀ a b, i ≠ .wfact a b) → (∀ v, i ≠ .read v) → t.err = s.err) ∧
    t.rom = s.rom ∧ t.waveCount = s.waveCount ∧ t.port = s.port

/-- R41: a step drives at most one sample, and only for the word of TICK: then it is the value the step leaves in OUT. -/
def Obligations.OnlyTickEmitsASample : Prop :=
  ∀ s t : State, step s = .next t →
    (s.port.head? = some (.command 0x10000000) → t.emitted = s.emitted ++ [t.out]) ∧
    (s.port.head? ≠ some (.command 0x10000000) → t.emitted = s.emitted)

/-- R35: the ROM of given parameters holds the image, byte `a` of it at address `a`, so that byte `k` of waveform `i` is
stored sample `k`, and no step changes a byte of it, which are those at addresses below `64 * WAVE_COUNT`. -/
def Obligations.RomHoldsItsImageForGood : Prop :=
  (∀ (s : State) (n : Nat) (image : List Byte) (a : Nat) (h : a < image.length), image.length = 64 * n →
    (s.withParameters n image).romByte a = image[a]) ∧
  (∀ (w : Byte) (k : Nat), sampleAddress w k = 64 * w.toNat + k) ∧
  (∀ s t : State, step s = .next t → ∀ a, a < 64 * s.waveCount → t.romByte a = s.romByte a)

/- Reset -/

/-- R20's column "power-on": every register right after the reset input at power-on; no sample has been emitted. -/
def Obligations.ResetLeavesThePowerOnValues : Prop :=
  State.reset.phase = 0 ∧ State.reset.phaseStep = 0 ∧ State.reset.slot = 0 ∧ State.reset.coef = 0 ∧
  State.reset.raw = 128 ∧ State.reset.out = 128 ∧ State.reset.int1 = 0 ∧ State.reset.int2 = 0 ∧
  State.reset.count = 0 ∧ State.reset.err = 0 ∧ State.reset.rdata = 0 ∧ State.reset.emitted = []

/-- R240, R241: the reset input puts every register at its power-on value and keeps the slot table with its record of
written fields, the ROM and `WAVE_COUNT`; it emits no sample. At power-on no field is recorded as written, and SRST
keeps the table with its record too. -/
def Obligations.ResetInputKeepsTheSlotTable : Prop :=
  (∀ (s : State) (rest : List HostInput), s.port = .resetInput :: rest →
    step s = .next { s with phase := 0, phaseStep := 0, slot := 0, coef := 0, raw := 128, out := 128, int1 := 0, int2 := 0,
                            count := 0, err := 0, rdata := 0, port := rest }) ∧
  (∀ i : Fin 61, (State.reset.table[i]).key.written = false ∧ (State.reset.table[i]).left.written = false ∧
    (State.reset.table[i]).right.written = false ∧ (State.reset.table[i]).factor.written = false) ∧
  (∀ s : State, ∃ t, exec .srst s = .next t ∧ t.table = s.table)

/-- R25, R33 and the parameters' own bounds: every step keeps the invariant. -/
def Obligations.EveryStepKeepsTheInvariant : Prop :=
  ∀ s t : State, s.Inv → step s = .next t → t.Inv

/-- The state right after reset meets the invariant. -/
def Obligations.ResetMeetsTheInvariant : Prop := State.reset.Inv

/- Errors -/

/-- R210 to R215: which error a command word raises, in order, and what it does: an erroring word changes only STATUS.ERR,
and that only if it was 0; any other word leaves ERR as it was, but for CLRERR.
That a command which reads a field never written completes, with a free value, is the model's choice (log 3). -/
def Obligations.ErrorsArePreciseAndInOrder : Prop :=
  ∀ (w : Word) (s : State),
    (∀ c, errorOf s.waveCount w = some c → execWord w s = .next (withError s c)) ∧
    (errorOf s.waveCount w = none → ∃ t, execWord w s = .next t ∧ t.err = if w = 0x80000000 then 0 else s.err)

/-- R215: a WSLOT word with bit 20 set, slot 63 and indices 255 reports ILLEGAL_CMD; without the bit it reports
INVALID_FORMAT; with slot 60 it reports OUT_OF_RANGE where 255 is out of range. -/
def Obligations.ErrorPriorityExamples : Prop :=
  ∀ s : State, s.waveCount ≤ 255 →
    execWord 0x5FD0FFFF s = .next (withError s 1) ∧ execWord 0x5FC0FFFF s = .next (withError s 2) ∧
    execWord 0x5F00FFFF s = .next (withError s 3)

/-- R214, R219: ERR keeps the first error: once it is not 0, a step changes it only to 0, and only for the word of
CLRERR or the reset input. -/
def Obligations.FirstErrorStaysUntilCleared : Prop :=
  ∀ s t : State, step s = .next t → s.err ≠ 0 → t.err ≠ s.err →
    t.err = 0 ∧ (s.port.head? = some (.command 0x80000000) ∨ s.port.head? = some .resetInput)

/-- R216: a non-zero ERR does not stop the block: a command other than the READ of STATUS does the same whatever ERR
holds, ERR itself apart.
That a command which reads a field never written completes, with a free value, is the model's choice (log 3). -/
def Obligations.ErrNeverChangesACommand : Prop :=
  ∀ (i : Instr) (s : State) (e : BitVec 2), i ≠ .read 0 →
    ∃ t t', exec i s = .next t ∧ exec i { s with err := e } = .next t' ∧ { t' with err := t.err } = t

/-- R194: CLRERR, its single word, and its only effect: ERR becomes 0; no other command lowers ERR, to 0 or to
any other code. -/
def Obligations.ClrerrClearsErr : Prop :=
  EncodedAs 0x80000000 0xFFFFFFFF (fun _ => .clrerr) ∧ (∀ s : State, exec .clrerr s = .next { s with err := 0 }) ∧
  ∀ (i : Instr) (s t : State), exec i s = .next t → t.err.toNat < s.err.toNat → i = .clrerr

/- Commands -/

/-- R180: NOP, its single word, and no state change. -/
def Obligations.NopChangesNothing : Prop :=
  EncodedAs 0x00000000 0xFFFFFFFF (fun _ => .nop) ∧ ∀ s : State, exec .nop s = .next s

/-- R183: SETSTEP, its words, and its only effect: `STEP <- imm16`. -/
def Obligations.SetstepWritesStep : Prop :=
  EncodedAs 0x20000000 0xFFFF0000 (fun w => .setstep (w.extractLsb' 0 16)) ∧
  ∀ (imm16 : BitVec 16) (s : State), exec (.setstep imm16) s = .next { s with phaseStep := imm16 }

/-- R185: SETSLOT, its words, and its only effect: `SLOT <- min(imm8, 60)`. -/
def Obligations.SetslotWritesTheClampedSlot : Prop :=
  EncodedAs 0x30000000 0xFFFFFF00 (fun w => .setslot (w.extractLsb' 0 8)) ∧
  ∀ (imm8 : Byte) (s : State) (i : Fin 61), i.val = min imm8.toNat 60 →
    exec (.setslot imm8) s = .next { s with slot := i }

/-- R186: SETCOEF, its words, and its only effect: `COEF <- imm8`. -/
def Obligations.SetcoefWritesCoef : Prop :=
  EncodedAs 0x40000000 0xFFFFFF00 (fun w => .setcoef (w.extractLsb' 0 8)) ∧
  ∀ (imm8 : Byte) (s : State), exec (.setcoef imm8) s = .next { s with coef := imm8 }

/-- R100: WSLOT, its words, its two errors in order, and the write of `key`, `left` and `right` of one entry, all else
unchanged. -/
def Obligations.WslotWritesOneEntry : Prop :=
  EncodedAs 0x50000000 0xF03E0000
    (fun w => .wslot (w.extractLsb' 22 6) (w.extractLsb' 16 1) (w.extractLsb' 8 8) (w.extractLsb' 0 8)) ∧
  ∀ (slot : BitVec 6) (key : BitVec 1) (wl wr : Byte) (s : State),
    (60 < slot.toNat → exec (.wslot slot key wl wr) s = .next (withError s 2)) ∧
    (slot.toNat ≤ 60 → s.waveCount ≤ wl.toNat ∨ s.waveCount ≤ wr.toNat →
      exec (.wslot slot key wl wr) s = .next (withError s 3)) ∧
    (∀ i : Fin 61, i.val = slot.toNat → wl.toNat < s.waveCount → wr.toNat < s.waveCount →
      ∃ t, exec (.wslot slot key wl wr) s = .next t ∧
        t.table[i] = ⟨⟨key, true⟩, ⟨wl, true⟩, ⟨wr, true⟩, (s.table[i]).factor⟩ ∧
        (∀ j : Fin 61, j ≠ i → t.table[j] = s.table[j]) ∧ t = { s with table := t.table })

/-- R102: WFACT, its words, its error, and the write of `factor` of one entry, all else unchanged. -/
def Obligations.WfactWritesOneFactor : Prop :=
  EncodedAs 0x60000000 0xF03FFF00 (fun w => .wfact (w.extractLsb' 22 6) (w.extractLsb' 0 8)) ∧
  ∀ (slot : BitVec 6) (fac : Byte) (s : State),
    (60 < slot.toNat → exec (.wfact slot fac) s = .next (withError s 2)) ∧
    (∀ i : Fin 61, i.val = slot.toNat →
      ∃ t, exec (.wfact slot fac) s = .next t ∧
        t.table[i] = ⟨(s.table[i]).key, (s.table[i]).left, (s.table[i]).right, ⟨fac, true⟩⟩ ∧
        (∀ j : Fin 61, j ≠ i → t.table[j] = s.table[j]) ∧ t = { s with table := t.table })

/-- R188: READ, its words, the value of every listed selector in RDATA and nothing else changed, and ILLEGAL_CMD for every
other selector.
That a command which reads a field never written completes, with a free value, is the model's choice (log 3). -/
def Obligations.ReadCopiesTheSelectedRegister : Prop :=
  EncodedAs 0x70000000 0xFFFFFF00 (fun w => .read (w.extractLsb' 0 8)) ∧
  ∀ (sel : Byte) (s : State), s.waveCount ≤ 256 →
    exec (.read sel) s = .next (match readValue s sel.toNat with
      | some v => { s with rdata := BitVec.ofNat 32 v }
      | none => withError s 1)

/-- R30: PARAM as READ gives it holds 61 in bits [7:0], `WAVE_COUNT` in bits [16:8] and 0 above. -/
def Obligations.ParamReadsItsFields : Prop :=
  ∀ s : State, s.waveCount ≤ 256 → ∃ t, exec (.read 0x0A) s = .next t ∧
    (t.rdata.extractLsb' 0 8).toNat = 61 ∧ (t.rdata.extractLsb' 8 9).toNat = s.waveCount ∧ t.rdata.extractLsb' 17 15 = 0

/-- R67: reading has no side effect: READ of a listed selector changes only RDATA, and reading again gives the same
state.
That a command which reads a field never written completes, with a free value, is the model's choice (log 3). -/
def Obligations.ReadsAreIdempotent : Prop :=
  ∀ (sel : Byte) (s : State), selectorListed sel = true →
    ∃ t, exec (.read sel) s = .next t ∧ { t with rdata := s.rdata } = s ∧ exec (.read sel) t = .next t

/-- R196: SRST, its single word, and its effect: the datapath at its empty state, all else kept. -/
def Obligations.SrstRestartsTheDatapath : Prop :=
  EncodedAs 0x90000000 0xFFFFFFFF (fun _ => .srst) ∧
  ∀ s : State, exec .srst s =
    .next { s with phase := 0, int1 := 0, int2 := 0, raw := 128, out := 128, count := 0 }

/-- R170 with R29, R104, R131, R133, R135, R150, R160, R164 and R166: TICK, its single word, and the whole of its effect
as numbers when the fields of the selected entry have been written; every other register, the slot table, the ROM and
the host's stream are unchanged. -/
def Obligations.TickOfALoadedSlotProducesItsSample : Prop :=
  EncodedAs 0x10000000 0xFFFFFFFF (fun _ => .tick) ∧
  ∀ s : State, s.Inv → s.slotReady s.slot → ∃ t, exec .tick s = .next t ∧ TickEffect (storedSample s) s t

/-- TICK completes from every state. Where a field of the selected entry was never written, the value it is computed
from is the model's free value, and so is a byte fetched outside the ROM: the model's choice (log 3 and log 4) where the
spec's own treatment (I1) is a fault or any value. All else is as R170 says. -/
def Obligations.TickCompletesFromEveryState : Prop :=
  ∀ s : State, ∃ t, exec .tick s = .next t ∧ TickEffect (blendedSample s) s t

/-- R32 (the spec's own inference): TICK reads only the entry SLOT selects, and not its key mark: a state that differs
only in other entries and in key marks gets the same datapath values and the same sample. That a command which reads a
field never written completes, with a free value, is the model's choice (log 3). -/
def Obligations.TickReadsOnlyTheSelectedEntry : Prop :=
  ∀ (s : State) (table : Vector SlotEntry 61),
    (table[s.slot]).left = (s.table[s.slot]).left → (table[s.slot]).right = (s.table[s.slot]).right →
    (table[s.slot]).factor = (s.table[s.slot]).factor →
    ∃ t, exec .tick s = .next t ∧ exec .tick { s with table := table } = .next { t with table := table }

/-- R73, R104 (R73 the spec's own inference): what WSLOT and WFACT write is what the lookup of the very next command
gives. That a command which reads a field never written completes, with a free value, is the model's choice (log 3). -/
def Obligations.WrittenEntryIsSeenByTheNextLookup : Prop :=
  ∀ (s t u : State) (slot : BitVec 6) (key : BitVec 1) (wl wr fac : Byte), slot.toNat = s.slot.val →
    wl.toNat < s.waveCount → wr.toNat < s.waveCount →
    exec (.wslot slot key wl wr) s = .next t → exec (.wfact slot fac) t = .next u →
    t.lookupSlot = ⟨wl, wr, s.factorOf s.slot⟩ ∧ u.lookupSlot = ⟨wl, wr, fac⟩

/- Interpolator -/

/-- R130, R131: the logical position is bits [15:9] of the phase, and the stored index and the inversion follow from it;
no stored sample is read twice within a half. -/
def Obligations.PhaseGivesPositionAndStoredIndex : Prop :=
  ∀ ph : BitVec 16, logicalPosition ph = 128 * ph.toNat / 65536 ∧ logicalPosition ph < 128 ∧
    (ph.toNat < 0x8000 → storedIndex (logicalPosition ph) = logicalPosition ph ∧
      invertedHalf (logicalPosition ph) = false) ∧
    (0x8000 ≤ ph.toNat → storedIndex (logicalPosition ph) = 127 - logicalPosition ph ∧
      invertedHalf (logicalPosition ph) = true) ∧
    storedIndex (logicalPosition ph) < 64 ∧ logicalPosition ph = (ph.extractLsb' 9 7).toNat ∧
    (∀ p q : Nat, p < 64 → q < 64 → (storedIndex p = storedIndex q → p = q) ∧
      (storedIndex (64 + p) = storedIndex (64 + q) → p = q))

/-- R132: inversion is 255 less the value, which is the bitwise complement. -/
def Obligations.InversionIsTheComplement : Prop :=
  ∀ v : Byte, (invertByte v).toNat = 255 - v.toNat ∧ invertByte v = ~~~v ∧ invertByte (invertByte v) = v ∧
    invertByte 0 = 255 ∧ invertByte 127 = 128 ∧ invertByte 128 = 127 ∧ invertByte 255 = 0

/-- R134 (the spec's own inference): the mirroring law: for every waveform, the sample at position `p + 64` is 255 less
the sample at `63 - p`. A waveform outside the ROM gives free bytes, the model's choice (log 4); the law holds whatever
they are. -/
def Obligations.MirroringLaw : Prop :=
  ∀ (s : State) (w : Byte) (p : Nat), p < 64 →
    (s.waveSample w (p + 64)).toNat = 255 - (s.waveSample w (63 - p)).toNat

/-- R136 (the spec's own inference): the consequences of the blend: factor 0 plays the left waveform whatever `right`
holds; equal samples blend to themselves; the blend lies between them; factor 255 reaches the right sample only where it
is not above the left; and inverting before the blend is not inverting after it. -/
def Obligations.BlendConsequences : Prop :=
  (∀ (s : State) (ph : BitVec 16), s.factorOf s.slot = 0 →
    s.sampleAt ph = s.waveSample (s.leftOf s.slot) (logicalPosition ph)) ∧
  (∀ v f : Byte, blend v v f = v) ∧
  (∀ sL sR f : Byte, min sL.toNat sR.toNat ≤ (blend sL sR f).toNat ∧ (blend sL sR f).toNat ≤ max sL.toNat sR.toNat) ∧
  (∀ sL sR : Byte, (blend sL sR 255).toNat = (sL.toNat + 255 * sR.toNat) / 256 ∧
    (blend sL sR 255 = sR ↔ sR.toNat ≤ sL.toNat)) ∧
  blend 0 255 255 = 254 ∧ blend 64 192 127 = 127 ∧ blend (invertByte 64) (invertByte 192) 127 = 127

/-- R61 (the spec's own inference): with the invariant, every fetch from a written reference is inside the ROM: at every
phase, TICK's fetch address for a written `left` or a written `right` is below `64 * WAVE_COUNT`, whether the other
fields of the entry have been written or not. -/
def Obligations.FetchesOfWrittenReferencesAreInTheRom : Prop :=
  ∀ (s : State) (ph : BitVec 16), s.Inv →
    ((s.table[s.slot]).left.written = true →
      sampleAddress s.lookupSlot.left (storedIndex (logicalPosition ph)) < 64 * s.waveCount) ∧
    ((s.table[s.slot]).right.written = true →
      sampleAddress s.lookupSlot.right (storedIndex (logicalPosition ph)) < 64 * s.waveCount)

/- Filter -/

/-- R161: `tdiv256` rounds toward zero. -/
def Obligations.DivisionRoundsTowardZero : Prop :=
  (∀ v : Int, tdiv256 v = Int.tdiv v 256) ∧ tdiv256 (-1) = 0 ∧ tdiv256 (-255) = 0 ∧ tdiv256 (-256) = -1 ∧
  tdiv256 (-32767) = -127 ∧ tdiv256 32767 = 127

/-- R160, R162: one filter stage, as numbers, with both clamps at -32767..32767; coefficient 0 holds it. -/
def Obligations.StageMovesItsIntegrator : Prop :=
  (∀ i x c : Int, stage i x c = (newIntegrator i x c, Int.tdiv (newIntegrator i x c) 256)) ∧
  (∀ i x : Int, -32767 ≤ i → i ≤ 32767 → stage i x 0 = (i, Int.tdiv i 256))

/-- R163 (the spec's own inference): the consequences for a stage the block feeds, (a) to (e). -/
def Obligations.StageConsequences : Prop :=
  (∀ i x c : Int, -32767 ≤ i → i ≤ 32767 → -128 ≤ x → x ≤ 127 → 0 ≤ c → c ≤ 255 →
    (-127 ≤ tdiv256 i ∧ tdiv256 i ≤ 127 ∧ -127 ≤ (stage i x c).2 ∧ (stage i x c).2 ≤ 127) ∧
    (-255 ≤ x - tdiv256 i ∧ x - tdiv256 i ≤ 255 ∧
      -65025 ≤ c * (x - tdiv256 i) ∧ c * (x - tdiv256 i) ≤ 65025) ∧
    i + sat16 (c * (x - tdiv256 i)) ≤ 32767 ∧
    (tdiv256 i = x → stage i x c = (i, x)) ∧
    (x = 0 → -255 ≤ i → i ≤ 255 → stage i x c = (i, 0))) ∧
  sat16 (255 * 254) = 32767 ∧
  -32767 + sat16 (255 * (-128 - tdiv256 (-32767))) = -33022 ∧ stage (-32767) (-128) 255 = (-32767, -127) ∧
  stage 0 127 255 = (32385, 126) ∧ stage 0 (-128) 255 = (-32640, -127)

/-- R166: TICK's output is the second stage's output plus the centre, which the clip never changes, so OUT is in 1..255:
the block never emits 0. That a command which reads a field never written completes, with a free value, is the model's
choice (log 3). -/
def Obligations.TickNeverEmitsZero : Prop :=
  ∀ s : State, ∃ t, exec .tick s = .next t ∧ (t.out.toNat : Int) = Int.tdiv t.int2.toInt 256 + 128 ∧
    1 ≤ t.out.toNat ∧ t.emitted = s.emitted ++ [t.out]

/- Sequences of TICKs -/

/-- R29, R151 (R151 the spec's own inference): after `n` TICKs the phase is `(P0 + n * S) mod 65536`, `n` samples have
been emitted and COUNT has grown by `n` modulo 2^32. That a command which reads a field never written completes, with a
free value, is the model's choice (log 3). -/
def Obligations.PhaseAfterTicks : Prop :=
  ∀ (n : Nat) (s : State), ∃ t, execAll (tickn n) s = .next t ∧
    t.phase.toNat = (s.phase.toNat + n * s.phaseStep.toNat) % 65536 ∧
    t.count.toNat = (s.count.toNat + n) % 2 ^ 32 ∧ t.emitted.length = s.emitted.length + n

/-- R151 (c) and (d), the spec's own inference: the phase is back where it was after `n` TICKs exactly when `65536 /
gcd(S, 65536)` divides `n`; with step 0 that is always. -/
def Obligations.PhasePeriod : Prop :=
  ∀ (n : Nat) (s t : State), execAll (tickn n) s = .next t →
    (t.phase = s.phase ↔ (65536 / Nat.gcd s.phaseStep.toNat 65536) ∣ n)

/-- R29: over any commands without SRST, COUNT grows by the number of TICKs among them, modulo 2^32. -/
def Obligations.CountCountsTicks : Prop :=
  ∀ (is : List Instr) (s t : State), Instr.srst ∉ is → execAll is s = .next t →
    t.count.toNat = (s.count.toNat + is.count .tick) % 2 ^ 32

/-- R32, R216, R243 (R32 and R243 the spec's own inference): samples depend only on the sample path: from two states
that agree on it, the same commands emit the same samples, whatever ERR, RDATA, COUNT, the key marks and the samples so
far are. That two runs read the same value of a field never written, which R243 excepts, is the model's choice (log 3),
and so is the same byte of both at an address outside the ROM (log 4). -/
def Obligations.SamplesDependOnlyOnTheSamplePath : Prop :=
  ∀ (is : List Instr) (s t s' t' : State), SamePath s t → execAll is s = .next s' → execAll is t = .next t' →
    SamePath s' t' ∧ ∃ samples, s'.emitted = s.emitted ++ samples ∧ t'.emitted = t.emitted ++ samples

/-- R242 (the spec's own inference): SRST and the reset input leave the datapath in the same state and restart the same
sequence: with STEP, SLOT and COEF set again after the reset input, `n` TICKs emit the same samples as after SRST. That
a command which reads a field never written completes, with a free value, is the model's choice (log 3). -/
def Obligations.SrstAndResetInputRestartAlike : Prop :=
  ∀ (n : Nat) (s : State) (slot : Byte), slot.toNat = s.slot.val →
    ∃ r a t u, performInput .resetInput s = .next r ∧ exec .srst s = .next a ∧
      (a.phase = r.phase ∧ a.int1 = r.int1 ∧ a.int2 = r.int2 ∧ a.raw = r.raw ∧ a.out = r.out ∧ a.count = r.count) ∧
      execAll (.srst :: tickn n) s = .next t ∧
      execAll ([.setstep s.phaseStep, .setslot slot, .setcoef s.coef] ++ tickn n) r = .next u ∧
      t.emitted = u.emitted ∧ t.phase = u.phase ∧ t.int1 = u.int1 ∧ t.int2 = u.int2 ∧ t.count = u.count

/-- R100, R119, R214: commands whose fields are all in range raise no error: executing them leaves ERR as it was, or
cleared by a CLRERR among them. That a command which reads a field never written completes, with a free value, is the
model's choice (log 3). -/
def Obligations.WellFormedCommandsRaiseNoError : Prop :=
  ∀ (is : List Instr) (s : State), (∀ i ∈ is, i.wellFormed s.waveCount = true) →
    ∃ t, execAll is s = .next t ∧ t.err = if Instr.clrerr ∈ is then 0 else s.err

/- The host's side -/

/-- R119: loading a decoded table raises no error and puts every loaded entry in its slot, in any order of slots; slots
not loaded keep their entries. -/
def Obligations.LoadingADecodedTableRaisesNoError : Prop :=
  ∀ (s : State) (buf : List Byte) (table : DecodedTable) (used : Nat) (order : List (Fin 61)),
    decodeRecord s.waveCount buf = .ok (table, used) →
    ∃ t, execAll (loadSlots table order) s = .next t ∧ t.err = s.err ∧
      (∀ i ∈ order, HoldsEntry t.table[i] table[i]) ∧ (∀ i, i ∉ order → t.table[i] = s.table[i]) ∧
      t = { s with table := t.table }

/-- R112, R114, R121: every decoded table has the properties the host owes: the last slot's factor is 0; the key slots and
their waveforms are those of the record's pairs, the later of two pairs at one position winning; a key slot has its
waveform on both sides and factor 0; a slot between key slots `l` and `r` has their waveforms and the factor of R114. -/
def Obligations.DecodedTablesKeepTheHostsDuties : Prop :=
  ∀ (waveCount : Nat) (buf : List Byte) (table : DecodedTable) (used : Nat),
    decodeRecord waveCount buf = .ok (table, used) →
    (table[60]).factor = 0 ∧ (table[60]).key = 1 ∧ (table[0]).key = 1 ∧
    (∀ i : Fin 61, (table[i]).left.toNat < waveCount ∧ (table[i]).right.toNat < waveCount) ∧
    (∃ (tag : Byte) (pairs : List (Byte × Byte)), buf.take used = tag :: pairBytes pairs ∧
      ∀ (i : Fin 61) (w : Byte), (table[i]).key = 1 ∧ (table[i]).left = w ↔ LastPairAt pairs i w) ∧
    (∀ i : Fin 61, (table[i]).key = 1 → (table[i]).left = (table[i]).right ∧ (table[i]).factor = 0) ∧
    (∀ i : Fin 61, (table[i]).key = 0 → ∃ l r : Fin 61, l < i ∧ i < r ∧ (table[l]).key = 1 ∧ (table[r]).key = 1 ∧
      (∀ j : Fin 61, l < j → j < r → (table[j]).key = 0) ∧
      (table[i]).left = (table[l]).left ∧ (table[i]).right = (table[r]).left ∧
      (table[i]).factor.toNat = (65535 / (r.val - l.val) * (i.val - l.val)) / 256)

/-- R116 (the spec's own inference): a successful decode consumes the tag byte and whole pairs, the last of them the
first at slot 60, and reads no byte after it. -/
def Obligations.DecodeConsumesWholePairs : Prop :=
  ∀ (waveCount : Nat) (buf : List Byte) (table : DecodedTable) (used : Nat),
    decodeRecord waveCount buf = .ok (table, used) →
    (∃ pairs : Nat, 1 ≤ pairs ∧ used = 1 + 2 * pairs ∧ used ≤ buf.length ∧ buf[2 * pairs]? = some 60 ∧
      ∀ k, 1 ≤ k → k < pairs → buf[2 * k]? ≠ some 60) ∧
    (∀ rest : List Byte, decodeRecord waveCount (buf.take used ++ rest) = .ok (table, used))

/-- R117: decoding records 0 to `n + 1` is decoding records 0 to `n` and then the record that starts where they ended: the
bytes consumed add up, and a failure of either is a failure of the whole. -/
def Obligations.ChainedDecodeAddsUp : Prop :=
  ∀ (waveCount : Nat) (buf : List Byte) (n : Nat),
    (∀ t used, decodeNth waveCount buf n = .ok (t, used) →
      (∀ t' used', decodeRecord waveCount (buf.drop used) = .ok (t', used') →
        decodeNth waveCount buf (n + 1) = .ok (t', used + used')) ∧
      (∀ e, decodeRecord waveCount (buf.drop used) = .error e → decodeNth waveCount buf (n + 1) = .error e)) ∧
    (∀ e, decodeNth waveCount buf n = .error e → decodeNth waveCount buf (n + 1) = .error e) ∧
    decodeNth waveCount buf 0 = decodeRecord waveCount buf

/-- R112, R113: the decoder on a record with any number of good pairs before its end. It fails where the record runs out
before a pair at slot 60 (none at all, or in the middle of a pair), at the first position above 60, at the first waveform
index at or above `WAVE_COUNT`, and after the terminating pair where slot 0 is no key wave; and it fails nowhere else. -/
def Obligations.MalformedRecordsFail : Prop :=
  (∀ wc, decodeRecord wc [] = .error .invalidFormat) ∧
  ∀ (wc : Nat) (tag : Byte) (good : List (Byte × Byte)), GoodPairs wc good →
    decodeRecord wc (tag :: pairBytes good) = .error .invalidFormat ∧
    (∀ b : Byte, decodeRecord wc (tag :: pairBytes good ++ [b]) = .error .invalidFormat) ∧
    ∀ (w p : Byte) (rest : List Byte),
      (60 < p.toNat → decodeRecord wc (tag :: pairBytes good ++ w :: p :: rest) = .error .invalidFormat) ∧
      (p.toNat ≤ 60 → wc ≤ w.toNat → decodeRecord wc (tag :: pairBytes good ++ w :: p :: rest) = .error .outOfRange) ∧
      (w.toNat < wc → (∀ q ∈ good, q.2 ≠ 0) →
        decodeRecord wc (tag :: pairBytes good ++ w :: 60 :: rest) = .error .invalidFormat) ∧
      (w.toNat < wc → (∃ q ∈ good, q.2 = 0) →
        ∃ table, decodeRecord wc (tag :: pairBytes good ++ w :: 60 :: rest) = .ok (table, 1 + 2 * (good.length + 1)))

/-- R115 (d) and the source's record scenario: the record `[00 05 00 0A 3C]` gives waveform 5 at slot 0, waveform 10 at
slot 60 and factor 127 at slot 30, and consumes 5 bytes. -/
def Obligations.RecordScenario : Prop :=
  ∃ table, decodeRecord 16 [0x00, 0x05, 0x00, 0x0A, 0x3C] = .ok (table, 5) ∧ table[0] = ⟨1, 5, 5, 0⟩ ∧
    table[30] = ⟨0, 5, 10, 127⟩ ∧ table[60] = ⟨1, 10, 10, 0⟩

/-- R152: the host's phase step is `65536 * num / (den * sampleRate)` rounded to the nearest number, halves up, wherever
the result fits 16 bits. That the function has no value exactly where it does not fit is the model's choice (log 10): by
R152 such a step would be written as 0, and the host must not use it. -/
def Obligations.PhaseStepRoundsHalfUp : Prop :=
  ∀ num den sampleRate : Nat, 0 < den * sampleRate →
    (∀ v, phaseStepOf num den sampleRate = some v →
      (2 * v.toNat - 1 : Int) * (den * sampleRate) ≤ 2 * 65536 * num ∧
      2 * 65536 * (num : Int) < (2 * v.toNat + 1) * (den * sampleRate)) ∧
    (phaseStepOf num den sampleRate = none ↔ (2 * 65536 - 1) * (den * sampleRate) ≤ 2 * 65536 * num)
end

