-- ==== Sys2Proof/Laws/Decode.lean ====
section
/-! SUPPORT. The number each layout of R82 stands for, the fields read back from it (R81), and bytes of a word (R64). -/

namespace Sys2Proof

/-- A concatenation as a number: the upper part scaled by the width of the lower (R7). -/
theorem append_toNat {v w : Nat} (x : BitVec v) (y : BitVec w) : (x ++ y).toNat = x.toNat * 2 ^ w + y.toNat := by
  rw [BitVec.toNat_append, ← Nat.shiftLeft_add_eq_or_of_lt y.isLt, Nat.shiftLeft_eq]

section
variable (imm16 : BitVec 16) (imm8 sel : Byte) (slot : BitVec 6) (key : BitVec 1) (wl wr fac : Byte)

theorem encode_setstep_toNat : (encode (.setstep imm16)).toNat = 0x20000000 + imm16.toNat := by
  simp only [encode]; erw [append_toNat, append_toNat]; simp

theorem encode_setslot_toNat : (encode (.setslot imm8)).toNat = 0x30000000 + imm8.toNat := by
  simp only [encode]; erw [append_toNat, append_toNat]; simp

theorem encode_setcoef_toNat : (encode (.setcoef imm8)).toNat = 0x40000000 + imm8.toNat := by
  simp only [encode]; erw [append_toNat, append_toNat]; simp

theorem encode_wslot_toNat : (encode (.wslot slot key wl wr)).toNat =
    0x50000000 + slot.toNat * 2 ^ 22 + key.toNat * 2 ^ 16 + wl.toNat * 2 ^ 8 + wr.toNat := by
  simp only [encode]; erw [append_toNat, append_toNat, append_toNat, append_toNat, append_toNat]; simp; ring

theorem encode_wfact_toNat : (encode (.wfact slot fac)).toNat = 0x60000000 + slot.toNat * 2 ^ 22 + fac.toNat := by
  simp only [encode]; erw [append_toNat, append_toNat, append_toNat]; simp; ring

theorem encode_read_toNat : (encode (.read sel)).toNat = 0x70000000 + sel.toNat := by
  simp only [encode]; erw [append_toNat, append_toNat]; simp

end

/-- The opcode of a word as a number (R80). -/
theorem opcodeOf_toNat (w : Word) : (opcodeOf w).toNat = w.toNat / 2 ^ 28 := by
  have := w.isLt
  simp only [opcodeOf, BitVec.extractLsb'_toNat, Nat.shiftRight_eq_div_pow]; omega

theorem slotField_toNat (w : Word) : (slotField w).toNat = w.toNat / 2 ^ 22 % 2 ^ 6 := by
  simp only [slotField, BitVec.extractLsb'_toNat, Nat.shiftRight_eq_div_pow]

theorem keyField_toNat (w : Word) : (keyField w).toNat = w.toNat / 2 ^ 16 % 2 := by
  simp only [keyField, BitVec.extractLsb'_toNat, Nat.shiftRight_eq_div_pow, pow_one]

theorem wlField_toNat (w : Word) : (wlField w).toNat = w.toNat / 2 ^ 8 % 2 ^ 8 := by
  simp only [wlField, BitVec.extractLsb'_toNat, Nat.shiftRight_eq_div_pow]

theorem lowByteField_toNat (w : Word) : (lowByteField w).toNat = w.toNat % 2 ^ 8 := by
  simp [lowByteField]

theorem imm16Field_toNat (w : Word) : (imm16Field w).toNat = w.toNat % 2 ^ 16 := by
  simp [imm16Field]

/-- The number that four transported bytes carry (R64). -/
theorem wordOfBytes_toNat (b0 b1 b2 b3 : Byte) :
    (wordOfBytes b0 b1 b2 b3).toNat = b0.toNat + b1.toNat * 2 ^ 8 + b2.toNat * 2 ^ 16 + b3.toNat * 2 ^ 24 := by
  simp only [wordOfBytes]; erw [append_toNat, append_toNat, append_toNat]; ring

end Sys2Proof
end

