-- ==== Sys2Proof/Laws/HostDecoder.lean ====
section
/-! SUPPORT. What the functions of the host reference decoder can do: reading pairs (R112), the neighbouring key slots and
the factor (R114). -/

namespace Sys2Proof.HostSide

@[simp] theorem pairBytes_nil : pairBytes [] = [] := rfl
@[simp] theorem pairBytes_cons (q : Byte × Byte) (pairs : List (Byte × Byte)) :
    pairBytes (q :: pairs) = q.1 :: q.2 :: pairBytes pairs := rfl
@[simp] theorem pairBytes_length (pairs : List (Byte × Byte)) : (pairBytes pairs).length = 2 * pairs.length := by
  induction pairs with
  | nil => rfl
  | cons q pairs ih => simp only [pairBytes_cons, List.length_cons, ih]; omega

/-- The key waves after the pairs of a list, a later pair at a position replacing the earlier one (R112). -/
def keysAfter (kw : KeyWaves) : List (Byte × Byte) → KeyWaves
  | [] => kw
  | q :: pairs => keysAfter (if h : q.2.toNat < 61 then kw.set q.2.toNat (some q.1) else kw) pairs

/-- A slot holds the wave of the last pair at its position; with no such pair it holds what it held before. -/
theorem keysAfter_eq_some (kw : KeyWaves) (pairs : List (Byte × Byte)) (i : Fin 61) (w : Byte) :
    (keysAfter kw pairs)[i] = some w ↔
      (∃ before after, pairs = before ++ (w, BitVec.ofNat 8 i.val) :: after ∧ ∀ q ∈ after, q.2 ≠ BitVec.ofNat 8 i.val) ∨
      kw[i] = some w ∧ ∀ q ∈ pairs, q.2 ≠ BitVec.ofNat 8 i.val := by
  have hi : (BitVec.ofNat 8 i.val).toNat = i.val := by have := i.isLt; simp; omega
  induction pairs generalizing kw with
  | nil => simp [keysAfter]
  | cons q pairs ih =>
    refine (ih _).trans ?_
    have hset : (if h : q.2.toNat < 61 then kw.set q.2.toNat (some q.1) else kw)[i] =
        if q.2 = BitVec.ofNat 8 i.val then some q.1 else kw[i] := by
      have he : q.2 = BitVec.ofNat 8 i.val ↔ q.2.toNat = i.val := by rw [← BitVec.toNat_inj, hi]
      by_cases h : q.2.toNat < 61
      · simp [h, he, Vector.getElem_set]
      · simp [h, he, show ¬ q.2.toNat = i.val by have := i.isLt; omega]
    rw [hset]
    constructor
    · rintro (⟨before, after, rfl, h⟩ | ⟨h, hn⟩)
      · exact .inl ⟨q :: before, after, rfl, h⟩
      · split at h
        · rename_i hq
          exact .inl ⟨[], pairs, by simp [← hq, ← Option.some.inj h], hn⟩
        · rename_i hq
          exact .inr ⟨h, List.forall_mem_cons.2 ⟨hq, hn⟩⟩
    · rintro (⟨before, after, he, h⟩ | ⟨h, hn⟩)
      · cases before with
        | nil =>
          obtain ⟨rfl, rfl⟩ := List.cons.inj he
          exact .inr ⟨by simp, h⟩
        | cons b before =>
          obtain ⟨rfl, rfl⟩ := List.cons.inj he
          exact .inl ⟨before, after, rfl, h⟩
      · obtain ⟨hq, hn⟩ := List.forall_mem_cons.1 hn
        exact .inr ⟨by rw [if_neg hq]; exact h, hn⟩

/-- Reading goes on after pairs whose waves are in the ROM and whose positions are below 60 (R112). -/
theorem readPairs_append (waveCount : Nat) (kw : KeyWaves) (pos : Nat) (pairs : List (Byte × Byte)) (rest : List Byte)
    (h : ∀ q ∈ pairs, q.1.toNat < waveCount ∧ q.2.toNat < 60) :
    readPairs waveCount kw pos (pairBytes pairs ++ rest) =
      readPairs waveCount (keysAfter kw pairs) (pos + 2 * pairs.length) rest := by
  induction pairs generalizing kw pos with
  | nil => rfl
  | cons q pairs ih =>
    obtain ⟨⟨hw, hp⟩, h⟩ := List.forall_mem_cons.1 h
    simp only [pairBytes_cons, List.cons_append, readPairs, keysAfter, dif_pos (show q.2.toNat < 61 by omega),
      if_neg (show ¬ waveCount ≤ q.1.toNat by omega), if_neg (show ¬ q.2.toNat = 60 by omega)]
    rw [ih _ _ h, List.length_cons, show pos + 2 + 2 * pairs.length = pos + 2 * (pairs.length + 1) by omega]

/-- Reading succeeds only on such pairs followed by a pair at slot 60 (R112, R116). -/
theorem readPairs_ok {waveCount : Nat} {kw kw' : KeyWaves} {pos used : Nat} {bytes : List Byte}
    (h : readPairs waveCount kw pos bytes = .ok (kw', used)) :
    ∃ pairs w rest, bytes = pairBytes pairs ++ w :: 60 :: rest ∧
      (∀ q ∈ pairs, q.1.toNat < waveCount ∧ q.2.toNat < 60) ∧ w.toNat < waveCount ∧
      kw' = keysAfter kw (pairs ++ [(w, 60)]) ∧ used = pos + 2 * (pairs.length + 1) := by
  induction bytes using List.twoStepInduction generalizing kw pos with
  | nil => cases h
  | singleton x => cases h
  | cons_cons w p rest ih _ =>
    rw [readPairs] at h
    split at h
    · rename_i hp
      split at h
      · cases h
      · rename_i hw
        split at h
        · rename_i h60
          obtain rfl : p = 60 := BitVec.eq_of_toNat_eq h60
          obtain ⟨rfl, rfl⟩ := Prod.mk.inj (Except.ok.inj h)
          exact ⟨[], w, rest, rfl, fun q hq => absurd hq List.not_mem_nil, by omega, rfl, rfl⟩
        · rename_i h60
          obtain ⟨pairs, u, rest', rfl, hg, hu, rfl, rfl⟩ := ih h
          refine ⟨(w, p) :: pairs, u, rest', rfl, List.forall_mem_cons.2
            ⟨⟨Nat.lt_of_not_le hw, Nat.lt_of_le_of_ne (Nat.le_of_lt_succ hp) h60⟩, hg⟩, hu, ?_, ?_⟩
          · simp only [List.cons_append, keysAfter, dif_pos hp]
          · simp only [List.length_cons]; omega
    · cases h

/-- The left key of a slot is the last key slot at or before it, once slot 0 is one (R114). -/
theorem leftKey_spec {kw : KeyWaves} (h0 : (keyWaveAt kw 0).isSome) (i : Nat) :
    leftKey kw i ≤ i ∧ (keyWaveAt kw (leftKey kw i)).isSome ∧
      ∀ j, leftKey kw i < j → j ≤ i → keyWaveAt kw j = none := by
  induction i with
  | zero => exact ⟨Nat.le_refl _, h0, fun j a b => absurd (Nat.lt_of_lt_of_le a b) (by simp [leftKey])⟩
  | succ i ih =>
    simp only [leftKey]
    split
    · rename_i h
      exact ⟨Nat.le_refl _, h, fun j a b => by omega⟩
    · rename_i h
      refine ⟨by omega, ih.2.1, fun j a b => ?_⟩
      rcases Nat.lt_or_eq_of_le b with b | rfl
      · exact ih.2.2 j a (by omega)
      · simpa using h

/-- The scan to the right finds the least key slot, if there is one in its range (R114). -/
theorem firstKeyFrom_spec {kw : KeyWaves} {n j e : Nat} (hj : j ≤ e) (hn : e < j + n) (he : (keyWaveAt kw e).isSome) :
    ∃ r, firstKeyFrom kw j n = some r ∧ j ≤ r ∧ r ≤ e ∧ (keyWaveAt kw r).isSome ∧
      ∀ k, j ≤ k → k < r → keyWaveAt kw k = none := by
  induction n generalizing j with
  | zero => omega
  | succ n ih =>
    simp only [firstKeyFrom]
    split
    · rename_i h
      exact ⟨j, rfl, Nat.le_refl _, hj, h, fun k a b => by omega⟩
    · rename_i h
      have hne : j ≠ e := fun q => h (q ▸ he)
      obtain ⟨r, a, b, c, d, f⟩ := ih (j := j + 1) (by omega) (by omega)
      refine ⟨r, a, by omega, c, d, fun k x y => ?_⟩
      rcases Nat.lt_or_eq_of_le x with x | rfl
      · exact f k x y
      · simpa using h

end Sys2Proof.HostSide
end

