-- ==== Sys2Proof/Laws/Memory.lean ====
section
/-! SUPPORT. The laws of memories: every operation keeps the canonical form, a read after a write gives the byte written
at that address and the old byte elsewhere, and a placed image reads back (R35, R60). -/

namespace Sys2Proof.Machine

theorem Memory.wf_nil : Memory.wf [] := ⟨List.Pairwise.nil, fun _ h => absurd h (List.not_mem_nil)⟩

/-- Every address a memory with a byte placed at `a` lists is `a` or was listed before. -/
theorem Memory.mem_write {m : Memory} {a : Nat} {b : Byte} {c : Host.Cell} (h : c ∈ Memory.write m a b) :
    c = (a, b) ∨ c ∈ m := by
  induction m with
  | nil => simp only [Memory.write] at h; split at h <;> simp_all
  | cons d rest ih =>
    simp only [Memory.write] at h
    split at h
    · rcases List.mem_cons.1 h with h | h
      · simp [h]
      · rcases ih h with h | h <;> simp [h]
    · split at h
      · split at h <;> simp_all
      · split at h <;> simp at h ⊢ <;> tauto

/-- Placing a byte keeps the canonical form. -/
theorem Memory.write_wf {m : Memory} (h : Memory.wf m) (a : Nat) (b : Byte) : Memory.wf (Memory.write m a b) := by
  induction m with
  | nil =>
    simp only [Memory.write]
    split
    · exact h
    · rename_i hb
      exact ⟨List.pairwise_singleton _ _, fun c hc => by rw [List.mem_singleton.1 hc]; exact hb⟩
  | cons d rest ih =>
    obtain ⟨hp, hv⟩ := h
    rw [List.pairwise_cons] at hp
    have hrest : Memory.wf rest := ⟨hp.2, fun c hc => hv c (List.mem_cons_of_mem _ hc)⟩
    simp only [Memory.write]
    split
    · rename_i hlt
      refine ⟨List.pairwise_cons.2 ⟨fun c hc => ?_, (ih hrest).1⟩, fun c hc => ?_⟩
      · rcases Memory.mem_write hc with rfl | hc
        · exact hlt
        · exact hp.1 c hc
      · rcases List.mem_cons.1 hc with rfl | hc
        · exact hv c (by simp)
        · exact (ih hrest).2 c hc
    · rename_i hge
      by_cases heq : d.1 = a
      · simp only [heq, if_true]
        split
        · exact hrest
        · rename_i hb
          refine ⟨List.pairwise_cons.2 ⟨fun c hc => ?_, hrest.1⟩, fun c hc => ?_⟩
          · have := hp.1 c hc; simp only; omega
          · rcases List.mem_cons.1 hc with rfl | hc
            · exact hb
            · exact hrest.2 c hc
      · simp only [heq, if_false]
        split
        · exact ⟨List.pairwise_cons.2 hp, hv⟩
        · rename_i hb
          refine ⟨List.pairwise_cons.2 ⟨fun c hc => ?_, List.pairwise_cons.2 hp⟩, fun c hc => ?_⟩
          · rcases List.mem_cons.1 hc with rfl | hc
            · simp only; omega
            · have := hp.1 c hc; simp only; omega
          · rcases List.mem_cons.1 hc with rfl | hc
            · exact hb
            · exact hv c hc

/-- A memory whose addresses are all above `a` lists nothing at `a`. -/
theorem Memory.lookup_none {m : Memory} {a : Nat} (h : ∀ c ∈ m, c.1 ≠ a) : Memory.lookup m a = none := by
  induction m with
  | nil => rfl
  | cons d rest ih =>
    simp only [Memory.lookup]
    rw [if_neg (h d (by simp)), ih (fun c hc => h c (List.mem_cons_of_mem _ hc))]

/-- The byte at the address just placed is the byte placed. -/
theorem Memory.read_write_same {m : Memory} (h : Memory.wf m) (a : Nat) (b : Byte) :
    Memory.read (Memory.write m a b) a = b := by
  induction m with
  | nil =>
    by_cases hb : b = Memory.unlisted a <;> simp [Memory.write, Memory.read, Memory.lookup, hb]
  | cons d rest ih =>
    obtain ⟨hp, hv⟩ := h
    rw [List.pairwise_cons] at hp
    have ih' := ih ⟨hp.2, fun c hc => hv c (List.mem_cons_of_mem _ hc)⟩
    have hnone : ¬ d.1 < a → Memory.lookup rest a = none := fun hge =>
      Memory.lookup_none fun c hc => by have := hp.1 c hc; omega
    by_cases hlt : d.1 < a
    · simp only [Memory.write, if_pos hlt, Memory.read, Memory.lookup]
      rw [if_neg (by omega)]
      exact ih'
    · by_cases hb : b = Memory.unlisted a <;> by_cases heq : d.1 = a <;>
        simp [Memory.write, Memory.read, Memory.lookup, hlt, hb, heq, hnone]

/-- Every other address reads as before. -/
theorem Memory.read_write_other (m : Memory) {a a' : Nat} (b : Byte) (h : a' ≠ a) :
    Memory.read (Memory.write m a b) a' = Memory.read m a' := by
  induction m with
  | nil => simp only [Memory.write]; split <;> simp [Memory.read, Memory.lookup, h.symm]
  | cons d rest ih =>
    simp only [Memory.write]
    split
    · by_cases hd : d.1 = a' <;> simp_all [Memory.read, Memory.lookup]
    · by_cases hd : d.1 = a <;> simp only [hd, if_true, if_false] <;> split <;>
        simp [Memory.read, Memory.lookup, hd, h.symm]

/-- Placing an image keeps the canonical form. -/
theorem Memory.placeFrom_wf {m : Memory} (h : Memory.wf m) (a : Nat) (image : List Byte) :
    Memory.wf (Memory.placeFrom m a image) := by
  induction image generalizing m a with
  | nil => exact h
  | cons b rest ih => exact ih (Memory.write_wf h a b) (a + 1)

/-- An image's memory is in canonical form. -/
theorem Memory.ofImage_wf (image : List Byte) : Memory.wf (Memory.ofImage image) :=
  Memory.placeFrom_wf Memory.wf_nil 0 image

/-- Addresses below the place of an image read as before. -/
theorem Memory.read_placeFrom_below (m : Memory) {a a' : Nat} (image : List Byte) (h : a' < a) :
    Memory.read (Memory.placeFrom m a image) a' = Memory.read m a' := by
  induction image generalizing m a with
  | nil => rfl
  | cons b rest ih =>
    simp only [Memory.placeFrom]
    rw [ih _ (by omega), Memory.read_write_other _ _ (by omega)]

/-- A placed image reads back (R35). -/
theorem Memory.read_placeFrom {m : Memory} (h : Memory.wf m) (a k : Nat) (image : List Byte) (hk : k < image.length) :
    Memory.read (Memory.placeFrom m a image) (a + k) = image[k] := by
  induction image generalizing m a k with
  | nil => simp at hk
  | cons b rest ih =>
    simp only [Memory.placeFrom]
    cases k with
    | zero =>
      rw [Memory.read_placeFrom_below _ _ (by omega)]
      exact Memory.read_write_same h a b
    | succ k =>
      have := ih (Memory.write_wf h a b) (a + 1) k (by simpa using hk)
      rw [show a + (k + 1) = a + 1 + k by omega, this]; rfl

/-- The byte at `k` of the ROM of an image is byte `k` of the image (R35, R60). -/
theorem Memory.read_ofImage (image : List Byte) (k : Nat) (hk : k < image.length) :
    Memory.read (Memory.ofImage image) k = image[k] := by
  have := Memory.read_placeFrom Memory.wf_nil 0 k image hk
  rwa [Nat.zero_add] at this

end Sys2Proof.Machine
end

