-- ==== Sys2Proof/Laws/Operands.lean ====
section
/-! SUPPORT. What the saturating arithmetic (R8, R161, R162) and the operand forms (R62, R185, R188) can give. -/

namespace Sys2Proof.Machine

theorem sat16_range (v : Int) : -32767 ≤ sat16 v ∧ sat16 v ≤ 32767 := by
  simp only [sat16, clampInt]; split <;> [omega; split <;> omega]

theorem sat16_of_range {v : Int} (h1 : -32767 ≤ v) (h2 : v ≤ 32767) : sat16 v = v := by
  simp only [sat16, clampInt]; split <;> [omega; split <;> omega]

/-- Division rounded toward zero stays within the bound of what it divides (R163). -/
theorem tdiv256_range {v : Int} (h1 : -32767 ≤ v) (h2 : v ≤ 32767) : -127 ≤ tdiv256 v ∧ tdiv256 v ≤ 127 := by
  simp only [tdiv256]; split <;> omega

/-- A saturated value survives its 16-bit encoding (R10). -/
theorem word16OfInt_toInt {v : Int} (h1 : -32767 ≤ v) (h2 : v ≤ 32767) : (word16OfInt v).toInt = v := by
  simp only [word16OfInt, BitVec.toInt_ofInt, Int.bmod_def]; omega

/-- A slot operand names an index exactly when it is below 61 (R62). -/
theorem slotIndex_eq_some {slot : BitVec 6} {i : Fin 61} : slotIndex slot = some i ↔ slot.toNat = i.val := by
  simp only [slotIndex]
  split <;> rename_i h
  · simp [Fin.ext_iff]
  · have := i.isLt; simp; omega

/-- SETSLOT selects the smaller of its operand and 60 (R185). -/
theorem clampedSlot_val (imm8 : Byte) : (clampedSlot imm8).val = min imm8.toNat 60 := by
  simp only [clampedSlot]; split <;> simp <;> omega

end Sys2Proof.Machine
end

