-- ==== Sys2Proof/Laws/PerInstr.lean ====
section
/-! SUPPORT. The family `RowMatch`: the word of a command matches the row of its opcode in the map of R90. -/

namespace Sys2Proof.Laws.RowMatch

/-- The word of the command has an opcode of the map, and its masked bits are the row's `match` value (R90). -/
def Statement (i : Instr) : Prop :=
  ∃ row, commandRows[(opcodeOf (encode i)).toNat]? = some row ∧ encode i &&& row.mask = row.pattern

/-- The bit of a word at a position, from its number. -/
theorem bit_of_toNat (w : Word) (j : Nat) : w.getLsbD j = decide (w.toNat / 2 ^ j % 2 = 1) := by
  rw [← BitVec.testBit_toNat, Nat.testBit_eq_decide_div_mod_eq]

theorem nop : Statement .nop := ⟨_, rfl, by decide⟩

theorem tick : Statement .tick := ⟨_, rfl, by decide⟩

theorem setstep (imm16 : BitVec 16) : Statement (.setstep imm16) := by
  have h := encode_setstep_toNat imm16
  have := imm16.isLt
  refine ⟨commandRows[2], ?_, BitVec.eq_of_getLsbD_eq fun j hj => ?_⟩
  · rw [opcodeOf_toNat, h, show (0x20000000 + imm16.toNat) / 2 ^ 28 = 2 by omega]; rfl
  · rw [BitVec.getLsbD_and, bit_of_toNat, h]; interval_cases j <;> simp [commandRows] <;> omega

theorem setslot (imm8 : Byte) : Statement (.setslot imm8) := by
  have h := encode_setslot_toNat imm8
  have := imm8.isLt
  refine ⟨commandRows[3], ?_, BitVec.eq_of_getLsbD_eq fun j hj => ?_⟩
  · rw [opcodeOf_toNat, h, show (0x30000000 + imm8.toNat) / 2 ^ 28 = 3 by omega]; rfl
  · rw [BitVec.getLsbD_and, bit_of_toNat, h]; interval_cases j <;> simp [commandRows] <;> omega

theorem setcoef (imm8 : Byte) : Statement (.setcoef imm8) := by
  have h := encode_setcoef_toNat imm8
  have := imm8.isLt
  refine ⟨commandRows[4], ?_, BitVec.eq_of_getLsbD_eq fun j hj => ?_⟩
  · rw [opcodeOf_toNat, h, show (0x40000000 + imm8.toNat) / 2 ^ 28 = 4 by omega]; rfl
  · rw [BitVec.getLsbD_and, bit_of_toNat, h]; interval_cases j <;> simp [commandRows] <;> omega

theorem wslot (slot : BitVec 6) (key : BitVec 1) (wl wr : Byte) : Statement (.wslot slot key wl wr) := by
  have h := encode_wslot_toNat slot key wl wr
  have := slot.isLt
  have := key.isLt
  have := wl.isLt
  have := wr.isLt
  refine ⟨commandRows[5], ?_, BitVec.eq_of_getLsbD_eq fun j hj => ?_⟩
  · rw [opcodeOf_toNat, h, Nat.div_eq_of_lt_le (k := 5) (by omega) (by omega)]; rfl
  · rw [BitVec.getLsbD_and, bit_of_toNat, h]; interval_cases j <;> simp [commandRows] <;> omega

theorem wfact (slot : BitVec 6) (fac : Byte) : Statement (.wfact slot fac) := by
  have h := encode_wfact_toNat slot fac
  have := slot.isLt
  have := fac.isLt
  refine ⟨commandRows[6], ?_, BitVec.eq_of_getLsbD_eq fun j hj => ?_⟩
  · rw [opcodeOf_toNat, h, Nat.div_eq_of_lt_le (k := 6) (by omega) (by omega)]; rfl
  · rw [BitVec.getLsbD_and, bit_of_toNat, h]; interval_cases j <;> simp [commandRows] <;> omega

theorem read (sel : Byte) : Statement (.read sel) := by
  have h := encode_read_toNat sel
  have := sel.isLt
  refine ⟨commandRows[7], ?_, BitVec.eq_of_getLsbD_eq fun j hj => ?_⟩
  · rw [opcodeOf_toNat, h, show (0x70000000 + sel.toNat) / 2 ^ 28 = 7 by omega]; rfl
  · rw [BitVec.getLsbD_and, bit_of_toNat, h]; interval_cases j <;> simp [commandRows] <;> omega

theorem clrerr : Statement .clrerr := ⟨_, rfl, by decide⟩

theorem srst : Statement .srst := ⟨_, rfl, by decide⟩

end Sys2Proof.Laws.RowMatch
end

