-- ==== Sys2Proof/Laws/State.lean ====
section
/-! SUPPORT. One lemma per field for each named update of the state, and what the updates of the slot table do to the
values read from it. -/

namespace Sys2Proof.Machine

/-- The sample TICK writes to OUT and emits (R166, R170). -/
def State.tickOutput (s : State) : Byte :=
  outputSample (stage s.int2.toInt (stage s.int1.toInt (centred (s.sampleAt s.nextPhase)) (s.coef.toNat : Int)).2
    (s.coef.toNat : Int)).2

section
variable (s : State) (c : ErrorCause)
@[simp] theorem State.raiseError_err : (s.raiseError c).err = stickyError s.err c := rfl
@[simp] theorem State.raiseError_phase : (s.raiseError c).phase = s.phase := rfl
@[simp] theorem State.raiseError_phaseStep : (s.raiseError c).phaseStep = s.phaseStep := rfl
@[simp] theorem State.raiseError_slot : (s.raiseError c).slot = s.slot := rfl
@[simp] theorem State.raiseError_coef : (s.raiseError c).coef = s.coef := rfl
@[simp] theorem State.raiseError_raw : (s.raiseError c).raw = s.raw := rfl
@[simp] theorem State.raiseError_out : (s.raiseError c).out = s.out := rfl
@[simp] theorem State.raiseError_int1 : (s.raiseError c).int1 = s.int1 := rfl
@[simp] theorem State.raiseError_int2 : (s.raiseError c).int2 = s.int2 := rfl
@[simp] theorem State.raiseError_count : (s.raiseError c).count = s.count := rfl
@[simp] theorem State.raiseError_rdata : (s.raiseError c).rdata = s.rdata := rfl
@[simp] theorem State.raiseError_table : (s.raiseError c).table = s.table := rfl
@[simp] theorem State.raiseError_rom : (s.raiseError c).rom = s.rom := rfl
@[simp] theorem State.raiseError_waveCount : (s.raiseError c).waveCount = s.waveCount := rfl
@[simp] theorem State.raiseError_emitted : (s.raiseError c).emitted = s.emitted := rfl
@[simp] theorem State.raiseError_port : (s.raiseError c).port = s.port := rfl
end

section
variable (s : State)
@[simp] theorem State.clearError_err : s.clearError.err = 0 := rfl
@[simp] theorem State.clearError_phase : s.clearError.phase = s.phase := rfl
@[simp] theorem State.clearError_phaseStep : s.clearError.phaseStep = s.phaseStep := rfl
@[simp] theorem State.clearError_slot : s.clearError.slot = s.slot := rfl
@[simp] theorem State.clearError_coef : s.clearError.coef = s.coef := rfl
@[simp] theorem State.clearError_raw : s.clearError.raw = s.raw := rfl
@[simp] theorem State.clearError_out : s.clearError.out = s.out := rfl
@[simp] theorem State.clearError_int1 : s.clearError.int1 = s.int1 := rfl
@[simp] theorem State.clearError_int2 : s.clearError.int2 = s.int2 := rfl
@[simp] theorem State.clearError_count : s.clearError.count = s.count := rfl
@[simp] theorem State.clearError_rdata : s.clearError.rdata = s.rdata := rfl
@[simp] theorem State.clearError_table : s.clearError.table = s.table := rfl
@[simp] theorem State.clearError_rom : s.clearError.rom = s.rom := rfl
@[simp] theorem State.clearError_waveCount : s.clearError.waveCount = s.waveCount := rfl
@[simp] theorem State.clearError_emitted : s.clearError.emitted = s.emitted := rfl
@[simp] theorem State.clearError_port : s.clearError.port = s.port := rfl
end

section
variable (s : State) (v : BitVec 16)
@[simp] theorem State.setPhaseStep_err : (s.setPhaseStep v).err = s.err := rfl
@[simp] theorem State.setPhaseStep_phase : (s.setPhaseStep v).phase = s.phase := rfl
@[simp] theorem State.setPhaseStep_phaseStep : (s.setPhaseStep v).phaseStep = v := rfl
@[simp] theorem State.setPhaseStep_slot : (s.setPhaseStep v).slot = s.slot := rfl
@[simp] theorem State.setPhaseStep_coef : (s.setPhaseStep v).coef = s.coef := rfl
@[simp] theorem State.setPhaseStep_raw : (s.setPhaseStep v).raw = s.raw := rfl
@[simp] theorem State.setPhaseStep_out : (s.setPhaseStep v).out = s.out := rfl
@[simp] theorem State.setPhaseStep_int1 : (s.setPhaseStep v).int1 = s.int1 := rfl
@[simp] theorem State.setPhaseStep_int2 : (s.setPhaseStep v).int2 = s.int2 := rfl
@[simp] theorem State.setPhaseStep_count : (s.setPhaseStep v).count = s.count := rfl
@[simp] theorem State.setPhaseStep_rdata : (s.setPhaseStep v).rdata = s.rdata := rfl
@[simp] theorem State.setPhaseStep_table : (s.setPhaseStep v).table = s.table := rfl
@[simp] theorem State.setPhaseStep_rom : (s.setPhaseStep v).rom = s.rom := rfl
@[simp] theorem State.setPhaseStep_waveCount : (s.setPhaseStep v).waveCount = s.waveCount := rfl
@[simp] theorem State.setPhaseStep_emitted : (s.setPhaseStep v).emitted = s.emitted := rfl
@[simp] theorem State.setPhaseStep_port : (s.setPhaseStep v).port = s.port := rfl
end

section
variable (s : State) (i : Fin 61)
@[simp] theorem State.setSlot_err : (s.setSlot i).err = s.err := rfl
@[simp] theorem State.setSlot_phase : (s.setSlot i).phase = s.phase := rfl
@[simp] theorem State.setSlot_phaseStep : (s.setSlot i).phaseStep = s.phaseStep := rfl
@[simp] theorem State.setSlot_slot : (s.setSlot i).slot = i := rfl
@[simp] theorem State.setSlot_coef : (s.setSlot i).coef = s.coef := rfl
@[simp] theorem State.setSlot_raw : (s.setSlot i).raw = s.raw := rfl
@[simp] theorem State.setSlot_out : (s.setSlot i).out = s.out := rfl
@[simp] theorem State.setSlot_int1 : (s.setSlot i).int1 = s.int1 := rfl
@[simp] theorem State.setSlot_int2 : (s.setSlot i).int2 = s.int2 := rfl
@[simp] theorem State.setSlot_count : (s.setSlot i).count = s.count := rfl
@[simp] theorem State.setSlot_rdata : (s.setSlot i).rdata = s.rdata := rfl
@[simp] theorem State.setSlot_table : (s.setSlot i).table = s.table := rfl
@[simp] theorem State.setSlot_rom : (s.setSlot i).rom = s.rom := rfl
@[simp] theorem State.setSlot_waveCount : (s.setSlot i).waveCount = s.waveCount := rfl
@[simp] theorem State.setSlot_emitted : (s.setSlot i).emitted = s.emitted := rfl
@[simp] theorem State.setSlot_port : (s.setSlot i).port = s.port := rfl
end

section
variable (s : State) (v : Byte)
@[simp] theorem State.setCoef_err : (s.setCoef v).err = s.err := rfl
@[simp] theorem State.setCoef_phase : (s.setCoef v).phase = s.phase := rfl
@[simp] theorem State.setCoef_phaseStep : (s.setCoef v).phaseStep = s.phaseStep := rfl
@[simp] theorem State.setCoef_slot : (s.setCoef v).slot = s.slot := rfl
@[simp] theorem State.setCoef_coef : (s.setCoef v).coef = v := rfl
@[simp] theorem State.setCoef_raw : (s.setCoef v).raw = s.raw := rfl
@[simp] theorem State.setCoef_out : (s.setCoef v).out = s.out := rfl
@[simp] theorem State.setCoef_int1 : (s.setCoef v).int1 = s.int1 := rfl
@[simp] theorem State.setCoef_int2 : (s.setCoef v).int2 = s.int2 := rfl
@[simp] theorem State.setCoef_count : (s.setCoef v).count = s.count := rfl
@[simp] theorem State.setCoef_rdata : (s.setCoef v).rdata = s.rdata := rfl
@[simp] theorem State.setCoef_table : (s.setCoef v).table = s.table := rfl
@[simp] theorem State.setCoef_rom : (s.setCoef v).rom = s.rom := rfl
@[simp] theorem State.setCoef_waveCount : (s.setCoef v).waveCount = s.waveCount := rfl
@[simp] theorem State.setCoef_emitted : (s.setCoef v).emitted = s.emitted := rfl
@[simp] theorem State.setCoef_port : (s.setCoef v).port = s.port := rfl
end

section
variable (s : State) (v : Word)
@[simp] theorem State.setRdata_err : (s.setRdata v).err = s.err := rfl
@[simp] theorem State.setRdata_phase : (s.setRdata v).phase = s.phase := rfl
@[simp] theorem State.setRdata_phaseStep : (s.setRdata v).phaseStep = s.phaseStep := rfl
@[simp] theorem State.setRdata_slot : (s.setRdata v).slot = s.slot := rfl
@[simp] theorem State.setRdata_coef : (s.setRdata v).coef = s.coef := rfl
@[simp] theorem State.setRdata_raw : (s.setRdata v).raw = s.raw := rfl
@[simp] theorem State.setRdata_out : (s.setRdata v).out = s.out := rfl
@[simp] theorem State.setRdata_int1 : (s.setRdata v).int1 = s.int1 := rfl
@[simp] theorem State.setRdata_int2 : (s.setRdata v).int2 = s.int2 := rfl
@[simp] theorem State.setRdata_count : (s.setRdata v).count = s.count := rfl
@[simp] theorem State.setRdata_rdata : (s.setRdata v).rdata = v := rfl
@[simp] theorem State.setRdata_table : (s.setRdata v).table = s.table := rfl
@[simp] theorem State.setRdata_rom : (s.setRdata v).rom = s.rom := rfl
@[simp] theorem State.setRdata_waveCount : (s.setRdata v).waveCount = s.waveCount := rfl
@[simp] theorem State.setRdata_emitted : (s.setRdata v).emitted = s.emitted := rfl
@[simp] theorem State.setRdata_port : (s.setRdata v).port = s.port := rfl
end

section
variable (s : State) (i : Fin 61) (key : BitVec 1) (wl wr : Byte)
@[simp] theorem State.setWaves_err : (s.setWaves i key wl wr).err = s.err := rfl
@[simp] theorem State.setWaves_phase : (s.setWaves i key wl wr).phase = s.phase := rfl
@[simp] theorem State.setWaves_phaseStep : (s.setWaves i key wl wr).phaseStep = s.phaseStep := rfl
@[simp] theorem State.setWaves_slot : (s.setWaves i key wl wr).slot = s.slot := rfl
@[simp] theorem State.setWaves_coef : (s.setWaves i key wl wr).coef = s.coef := rfl
@[simp] theorem State.setWaves_raw : (s.setWaves i key wl wr).raw = s.raw := rfl
@[simp] theorem State.setWaves_out : (s.setWaves i key wl wr).out = s.out := rfl
@[simp] theorem State.setWaves_int1 : (s.setWaves i key wl wr).int1 = s.int1 := rfl
@[simp] theorem State.setWaves_int2 : (s.setWaves i key wl wr).int2 = s.int2 := rfl
@[simp] theorem State.setWaves_count : (s.setWaves i key wl wr).count = s.count := rfl
@[simp] theorem State.setWaves_rdata : (s.setWaves i key wl wr).rdata = s.rdata := rfl
@[simp] theorem State.setWaves_rom : (s.setWaves i key wl wr).rom = s.rom := rfl
@[simp] theorem State.setWaves_waveCount : (s.setWaves i key wl wr).waveCount = s.waveCount := rfl
@[simp] theorem State.setWaves_emitted : (s.setWaves i key wl wr).emitted = s.emitted := rfl
@[simp] theorem State.setWaves_port : (s.setWaves i key wl wr).port = s.port := rfl
end

section
variable (s : State) (i : Fin 61) (fac : Byte)
@[simp] theorem State.setFactor_err : (s.setFactor i fac).err = s.err := rfl
@[simp] theorem State.setFactor_phase : (s.setFactor i fac).phase = s.phase := rfl
@[simp] theorem State.setFactor_phaseStep : (s.setFactor i fac).phaseStep = s.phaseStep := rfl
@[simp] theorem State.setFactor_slot : (s.setFactor i fac).slot = s.slot := rfl
@[simp] theorem State.setFactor_coef : (s.setFactor i fac).coef = s.coef := rfl
@[simp] theorem State.setFactor_raw : (s.setFactor i fac).raw = s.raw := rfl
@[simp] theorem State.setFactor_out : (s.setFactor i fac).out = s.out := rfl
@[simp] theorem State.setFactor_int1 : (s.setFactor i fac).int1 = s.int1 := rfl
@[simp] theorem State.setFactor_int2 : (s.setFactor i fac).int2 = s.int2 := rfl
@[simp] theorem State.setFactor_count : (s.setFactor i fac).count = s.count := rfl
@[simp] theorem State.setFactor_rdata : (s.setFactor i fac).rdata = s.rdata := rfl
@[simp] theorem State.setFactor_rom : (s.setFactor i fac).rom = s.rom := rfl
@[simp] theorem State.setFactor_waveCount : (s.setFactor i fac).waveCount = s.waveCount := rfl
@[simp] theorem State.setFactor_emitted : (s.setFactor i fac).emitted = s.emitted := rfl
@[simp] theorem State.setFactor_port : (s.setFactor i fac).port = s.port := rfl
end

section
variable (s : State) (v : Byte)
@[simp] theorem State.emit_err : (s.emit v).err = s.err := rfl
@[simp] theorem State.emit_phase : (s.emit v).phase = s.phase := rfl
@[simp] theorem State.emit_phaseStep : (s.emit v).phaseStep = s.phaseStep := rfl
@[simp] theorem State.emit_slot : (s.emit v).slot = s.slot := rfl
@[simp] theorem State.emit_coef : (s.emit v).coef = s.coef := rfl
@[simp] theorem State.emit_raw : (s.emit v).raw = s.raw := rfl
@[simp] theorem State.emit_out : (s.emit v).out = s.out := rfl
@[simp] theorem State.emit_int1 : (s.emit v).int1 = s.int1 := rfl
@[simp] theorem State.emit_int2 : (s.emit v).int2 = s.int2 := rfl
@[simp] theorem State.emit_count : (s.emit v).count = s.count := rfl
@[simp] theorem State.emit_rdata : (s.emit v).rdata = s.rdata := rfl
@[simp] theorem State.emit_table : (s.emit v).table = s.table := rfl
@[simp] theorem State.emit_rom : (s.emit v).rom = s.rom := rfl
@[simp] theorem State.emit_waveCount : (s.emit v).waveCount = s.waveCount := rfl
@[simp] theorem State.emit_emitted : (s.emit v).emitted = s.emitted ++ [v] := rfl
@[simp] theorem State.emit_port : (s.emit v).port = s.port := rfl
end

section
variable (s : State)
@[simp] theorem State.restart_err : s.restart.err = s.err := rfl
@[simp] theorem State.restart_phase : s.restart.phase = 0 := rfl
@[simp] theorem State.restart_phaseStep : s.restart.phaseStep = s.phaseStep := rfl
@[simp] theorem State.restart_slot : s.restart.slot = s.slot := rfl
@[simp] theorem State.restart_coef : s.restart.coef = s.coef := rfl
@[simp] theorem State.restart_raw : s.restart.raw = 128 := rfl
@[simp] theorem State.restart_out : s.restart.out = 128 := rfl
@[simp] theorem State.restart_int1 : s.restart.int1 = 0 := rfl
@[simp] theorem State.restart_int2 : s.restart.int2 = 0 := rfl
@[simp] theorem State.restart_count : s.restart.count = 0 := rfl
@[simp] theorem State.restart_rdata : s.restart.rdata = s.rdata := rfl
@[simp] theorem State.restart_table : s.restart.table = s.table := rfl
@[simp] theorem State.restart_rom : s.restart.rom = s.rom := rfl
@[simp] theorem State.restart_waveCount : s.restart.waveCount = s.waveCount := rfl
@[simp] theorem State.restart_emitted : s.restart.emitted = s.emitted := rfl
@[simp] theorem State.restart_port : s.restart.port = s.port := rfl
end

section
variable (s : State)
@[simp] theorem State.applyReset_err : s.applyReset.err = 0 := rfl
@[simp] theorem State.applyReset_phase : s.applyReset.phase = 0 := rfl
@[simp] theorem State.applyReset_phaseStep : s.applyReset.phaseStep = 0 := rfl
@[simp] theorem State.applyReset_slot : s.applyReset.slot = 0 := rfl
@[simp] theorem State.applyReset_coef : s.applyReset.coef = 0 := rfl
@[simp] theorem State.applyReset_raw : s.applyReset.raw = 128 := rfl
@[simp] theorem State.applyReset_out : s.applyReset.out = 128 := rfl
@[simp] theorem State.applyReset_int1 : s.applyReset.int1 = 0 := rfl
@[simp] theorem State.applyReset_int2 : s.applyReset.int2 = 0 := rfl
@[simp] theorem State.applyReset_count : s.applyReset.count = 0 := rfl
@[simp] theorem State.applyReset_rdata : s.applyReset.rdata = 0 := rfl
@[simp] theorem State.applyReset_table : s.applyReset.table = s.table := rfl
@[simp] theorem State.applyReset_rom : s.applyReset.rom = s.rom := rfl
@[simp] theorem State.applyReset_waveCount : s.applyReset.waveCount = s.waveCount := rfl
@[simp] theorem State.applyReset_emitted : s.applyReset.emitted = s.emitted := rfl
@[simp] theorem State.applyReset_port : s.applyReset.port = s.port := rfl
end

section
variable (s : State)
@[simp] theorem State.takeInput_err : s.takeInput.err = s.err := rfl
@[simp] theorem State.takeInput_phase : s.takeInput.phase = s.phase := rfl
@[simp] theorem State.takeInput_phaseStep : s.takeInput.phaseStep = s.phaseStep := rfl
@[simp] theorem State.takeInput_slot : s.takeInput.slot = s.slot := rfl
@[simp] theorem State.takeInput_coef : s.takeInput.coef = s.coef := rfl
@[simp] theorem State.takeInput_raw : s.takeInput.raw = s.raw := rfl
@[simp] theorem State.takeInput_out : s.takeInput.out = s.out := rfl
@[simp] theorem State.takeInput_int1 : s.takeInput.int1 = s.int1 := rfl
@[simp] theorem State.takeInput_int2 : s.takeInput.int2 = s.int2 := rfl
@[simp] theorem State.takeInput_count : s.takeInput.count = s.count := rfl
@[simp] theorem State.takeInput_rdata : s.takeInput.rdata = s.rdata := rfl
@[simp] theorem State.takeInput_table : s.takeInput.table = s.table := rfl
@[simp] theorem State.takeInput_rom : s.takeInput.rom = s.rom := rfl
@[simp] theorem State.takeInput_waveCount : s.takeInput.waveCount = s.waveCount := rfl
@[simp] theorem State.takeInput_emitted : s.takeInput.emitted = s.emitted := rfl
@[simp] theorem State.takeInput_port : s.takeInput.port = s.port.tail := rfl
end

section
variable (s : State) (x : HostInput)
@[simp] theorem State.sendFirst_err : (s.sendFirst x).err = s.err := rfl
@[simp] theorem State.sendFirst_phase : (s.sendFirst x).phase = s.phase := rfl
@[simp] theorem State.sendFirst_phaseStep : (s.sendFirst x).phaseStep = s.phaseStep := rfl
@[simp] theorem State.sendFirst_slot : (s.sendFirst x).slot = s.slot := rfl
@[simp] theorem State.sendFirst_coef : (s.sendFirst x).coef = s.coef := rfl
@[simp] theorem State.sendFirst_raw : (s.sendFirst x).raw = s.raw := rfl
@[simp] theorem State.sendFirst_out : (s.sendFirst x).out = s.out := rfl
@[simp] theorem State.sendFirst_int1 : (s.sendFirst x).int1 = s.int1 := rfl
@[simp] theorem State.sendFirst_int2 : (s.sendFirst x).int2 = s.int2 := rfl
@[simp] theorem State.sendFirst_count : (s.sendFirst x).count = s.count := rfl
@[simp] theorem State.sendFirst_rdata : (s.sendFirst x).rdata = s.rdata := rfl
@[simp] theorem State.sendFirst_table : (s.sendFirst x).table = s.table := rfl
@[simp] theorem State.sendFirst_rom : (s.sendFirst x).rom = s.rom := rfl
@[simp] theorem State.sendFirst_waveCount : (s.sendFirst x).waveCount = s.waveCount := rfl
@[simp] theorem State.sendFirst_emitted : (s.sendFirst x).emitted = s.emitted := rfl
@[simp] theorem State.sendFirst_port : (s.sendFirst x).port = x :: s.port := rfl
end

section
variable (s : State) (n : Nat) (image : List Byte)
@[simp] theorem State.withParameters_err : (s.withParameters n image).err = s.err := rfl
@[simp] theorem State.withParameters_phase : (s.withParameters n image).phase = s.phase := rfl
@[simp] theorem State.withParameters_phaseStep : (s.withParameters n image).phaseStep = s.phaseStep := rfl
@[simp] theorem State.withParameters_slot : (s.withParameters n image).slot = s.slot := rfl
@[simp] theorem State.withParameters_coef : (s.withParameters n image).coef = s.coef := rfl
@[simp] theorem State.withParameters_raw : (s.withParameters n image).raw = s.raw := rfl
@[simp] theorem State.withParameters_out : (s.withParameters n image).out = s.out := rfl
@[simp] theorem State.withParameters_int1 : (s.withParameters n image).int1 = s.int1 := rfl
@[simp] theorem State.withParameters_int2 : (s.withParameters n image).int2 = s.int2 := rfl
@[simp] theorem State.withParameters_count : (s.withParameters n image).count = s.count := rfl
@[simp] theorem State.withParameters_rdata : (s.withParameters n image).rdata = s.rdata := rfl
@[simp] theorem State.withParameters_table : (s.withParameters n image).table = s.table := rfl
@[simp] theorem State.withParameters_rom : (s.withParameters n image).rom = Memory.ofImage image := rfl
@[simp] theorem State.withParameters_waveCount : (s.withParameters n image).waveCount = n := rfl
@[simp] theorem State.withParameters_emitted : (s.withParameters n image).emitted = s.emitted := rfl
@[simp] theorem State.withParameters_port : (s.withParameters n image).port = s.port := rfl
end

section
variable (s : State)
@[simp] theorem State.tick_err : s.tick.err = s.err := rfl
@[simp] theorem State.tick_phase : s.tick.phase = s.nextPhase := rfl
@[simp] theorem State.tick_phaseStep : s.tick.phaseStep = s.phaseStep := rfl
@[simp] theorem State.tick_slot : s.tick.slot = s.slot := rfl
@[simp] theorem State.tick_coef : s.tick.coef = s.coef := rfl
@[simp] theorem State.tick_raw : s.tick.raw = s.sampleAt s.nextPhase := rfl
@[simp] theorem State.tick_out : s.tick.out = s.tickOutput := rfl
@[simp] theorem State.tick_int1 : s.tick.int1 = word16OfInt (stage s.int1.toInt (centred (s.sampleAt s.nextPhase)) (s.coef.toNat : Int)).1 := rfl
@[simp] theorem State.tick_int2 : s.tick.int2 = word16OfInt (stage s.int2.toInt
        (stage s.int1.toInt (centred (s.sampleAt s.nextPhase)) (s.coef.toNat : Int)).2 (s.coef.toNat : Int)).1 := rfl
@[simp] theorem State.tick_count : s.tick.count = s.count + 1 := rfl
@[simp] theorem State.tick_rdata : s.tick.rdata = s.rdata := rfl
@[simp] theorem State.tick_table : s.tick.table = s.table := rfl
@[simp] theorem State.tick_rom : s.tick.rom = s.rom := rfl
@[simp] theorem State.tick_waveCount : s.tick.waveCount = s.waveCount := rfl
@[simp] theorem State.tick_emitted : s.tick.emitted = s.emitted ++ [s.tickOutput] := rfl
@[simp] theorem State.tick_port : s.tick.port = s.port := rfl
end

end Sys2Proof.Machine
end

