-- ==== Sys2Proof/Laws/Sample.lean ====
section
/-! SUPPORT. What the interpolator, the filter stage and TICK can give, as numbers (R130 to R166). -/

namespace Sys2Proof.Machine

/-- A logical position is below 128 (R130). -/
theorem logicalPosition_eq (ph : BitVec 16) : logicalPosition ph = ph.toNat / 512 := by
  have := ph.isLt
  simp only [logicalPosition, BitVec.extractLsb'_toNat, Nat.shiftRight_eq_div_pow]; omega

/-- Inversion as a number (R132). -/
theorem invertByte_toNat (v : Byte) : (invertByte v).toNat = 255 - v.toNat := by
  have := v.isLt
  simp only [invertByte, BitVec.toNat_sub]; simp; omega

/-- The blend as a number: the shift loses nothing to the byte's width (R135). -/
theorem blend_toNat (sL sR f : Byte) :
    (blend sL sR f).toNat = (sL.toNat * (256 - f.toNat) + sR.toNat * f.toNat) / 256 := by
  have h1 := sL.isLt
  have h2 := sR.isLt
  have h3 := f.isLt
  have a : sL.toNat * (256 - f.toNat) ≤ 255 * (256 - f.toNat) := Nat.mul_le_mul_right _ (by omega)
  have b : sR.toNat * f.toNat ≤ 255 * f.toNat := Nat.mul_le_mul_right _ (by omega)
  simp only [blend, BitVec.toNat_ofNat, Nat.shiftRight_eq_div_pow]
  rw [Nat.mod_eq_of_lt (by omega)]

/-- A stage leaves a saturated integrator (R162). -/
theorem stageIntegrator_range (i x c : Int) : -32767 ≤ stageIntegrator i x c ∧ stageIntegrator i x c ≤ 32767 :=
  sat16_range _

/-- A stage's output is in -127..127 (R163). -/
theorem stage_output_range (i x c : Int) : -127 ≤ (stage i x c).2 ∧ (stage i x c).2 ≤ 127 :=
  tdiv256_range (stageIntegrator_range i x c).1 (stageIntegrator_range i x c).2

/-- The output sample of a stage output: the centre added, nothing clipped (R166). -/
theorem outputSample_toNat {y : Int} (h1 : -127 ≤ y) (h2 : y ≤ 127) : ((outputSample y).toNat : Int) = y + 128 := by
  have hc : clampInt (y + 128) 0 255 = y + 128 := by simp only [clampInt]; split <;> [omega; split <;> omega]
  simp only [outputSample, hc, BitVec.toNat_ofInt]; omega

/-- INT1 after TICK, as a signed number (R160, R164). -/
theorem State.tick_int1_toInt (s : State) : s.tick.int1.toInt =
    stageIntegrator s.int1.toInt (centred (s.sampleAt s.nextPhase)) (s.coef.toNat : Int) := by
  rw [State.tick_int1]
  exact word16OfInt_toInt (stageIntegrator_range ..).1 (stageIntegrator_range ..).2

/-- INT2 after TICK, as a signed number (R160, R164). -/
theorem State.tick_int2_toInt (s : State) : s.tick.int2.toInt =
    stageIntegrator s.int2.toInt (tdiv256 (stageIntegrator s.int1.toInt (centred (s.sampleAt s.nextPhase))
      (s.coef.toNat : Int))) (s.coef.toNat : Int) := by
  rw [State.tick_int2]
  exact word16OfInt_toInt (stageIntegrator_range ..).1 (stageIntegrator_range ..).2

end Sys2Proof.Machine
end

