-- ==== Sys2Proof/Laws/SlotTable.lean ====
section
/-! SUPPORT. What writing a slot-table entry does to the values read from the table (R66, R100, R102), and the cases of
the two writing commands. -/

namespace Sys2Proof.Machine

section
variable {width : Nat} (v u : BitVec width)

@[simp] theorem Stored.holding_value : (Stored.holding v).value u = v := rfl
@[simp] theorem Stored.holding_written : (Stored.holding v).written = true := rfl
@[simp] theorem Stored.holding_bits : (Stored.holding v).bits = v := rfl
@[simp] theorem Stored.unwritten_written : (Stored.unwritten width).written = false := rfl

end

/-- A written field reads as its bits. -/
theorem Stored.value_of_written {width : Nat} {f : Stored width} (h : f.written = true) (u : BitVec width) :
    f.value u = f.bits := by
  simp [Stored.value, h]

section
variable (s : State) (i j : Fin 61) (key : BitVec 1) (wl wr fac : Byte)

/-- The entry WSLOT leaves at `i`, every other entry kept. -/
theorem State.setWaves_entry :
    (s.setWaves i key wl wr).table[j] =
      if i = j then
        ⟨Stored.holding key, Stored.holding wl, Stored.holding wr, (s.table[i]).factor⟩
      else s.table[j] := by
  simp [State.setWaves, Vector.getElem_set, Fin.ext_iff]

/-- The entry WFACT leaves at `i`, every other entry kept. -/
theorem State.setFactor_entry :
    (s.setFactor i fac).table[j] =
      if i = j then
        ⟨(s.table[i]).key, (s.table[i]).left, (s.table[i]).right, Stored.holding fac⟩
      else s.table[j] := by
  simp [State.setFactor, Vector.getElem_set, Fin.ext_iff]

@[simp] theorem State.setWaves_keyOf : (s.setWaves i key wl wr).keyOf j = if i = j then key else s.keyOf j := by
  simp only [State.keyOf, State.setWaves_entry]; split <;> rfl

@[simp] theorem State.setWaves_leftOf : (s.setWaves i key wl wr).leftOf j = if i = j then wl else s.leftOf j := by
  simp only [State.leftOf, State.setWaves_entry]; split <;> rfl

@[simp] theorem State.setWaves_rightOf : (s.setWaves i key wl wr).rightOf j = if i = j then wr else s.rightOf j := by
  simp only [State.rightOf, State.setWaves_entry]; split <;> rfl

@[simp] theorem State.setWaves_factorOf : (s.setWaves i key wl wr).factorOf j = s.factorOf j := by
  simp only [State.factorOf, State.setWaves_entry]; split <;> simp_all

@[simp] theorem State.setFactor_factorOf : (s.setFactor i fac).factorOf j = if i = j then fac else s.factorOf j := by
  simp only [State.factorOf, State.setFactor_entry]; split <;> rfl

@[simp] theorem State.setFactor_keyOf : (s.setFactor i fac).keyOf j = s.keyOf j := by
  simp only [State.keyOf, State.setFactor_entry]; split <;> simp_all

@[simp] theorem State.setFactor_leftOf : (s.setFactor i fac).leftOf j = s.leftOf j := by
  simp only [State.leftOf, State.setFactor_entry]; split <;> simp_all

@[simp] theorem State.setFactor_rightOf : (s.setFactor i fac).rightOf j = s.rightOf j := by
  simp only [State.rightOf, State.setFactor_entry]; split <;> simp_all

end

/-- What WSLOT can do: one of its two errors, or the write of one entry (R100). -/
theorem State.writeWaves_cases (s : State) (slot : BitVec 6) (key : BitVec 1) (wl wr : Byte) :
    (61 ≤ slot.toNat ∧ s.writeWaves slot key wl wr = s.raiseError .invalidFormat) ∨
    (slot.toNat < 61 ∧ (s.waveCount ≤ wl.toNat ∨ s.waveCount ≤ wr.toNat) ∧
      s.writeWaves slot key wl wr = s.raiseError .outOfRange) ∨
    (∃ i : Fin 61, i.val = slot.toNat ∧ wl.toNat < s.waveCount ∧ wr.toNat < s.waveCount ∧
      s.writeWaves slot key wl wr = s.setWaves i key wl wr) := by
  by_cases h : slot.toNat < 61
  · by_cases hw : s.waveCount ≤ wl.toNat ∨ s.waveCount ≤ wr.toNat
    · exact .inr (.inl ⟨h, hw, by simp [State.writeWaves, slotIndex, h, hw]⟩)
    · refine .inr (.inr ⟨⟨slot.toNat, h⟩, rfl, by omega, by omega, ?_⟩)
      simp [State.writeWaves, slotIndex, h, hw]
  · exact .inl ⟨by omega, by simp [State.writeWaves, slotIndex, h]⟩

/-- What WFACT can do: its error, or the write of one entry (R102). -/
theorem State.writeFactor_cases (s : State) (slot : BitVec 6) (fac : Byte) :
    (61 ≤ slot.toNat ∧ s.writeFactor slot fac = s.raiseError .invalidFormat) ∨
    (∃ i : Fin 61, i.val = slot.toNat ∧ s.writeFactor slot fac = s.setFactor i fac) := by
  by_cases h : slot.toNat < 61
  · exact .inr ⟨⟨slot.toNat, h⟩, rfl, by simp [State.writeFactor, slotIndex, h]⟩
  · exact .inl ⟨by omega, by simp [State.writeFactor, slotIndex, h]⟩

end Sys2Proof.Machine
end

