-- ==== Sys2Proof/Laws/Step.lean ====
section
/-! SUPPORT. What a command, a word and a step can do: the meaning of each command in one equation, the frame of the three
commands that may raise an error, and the cases of a step. -/

namespace Sys2Proof.Machine

section
variable (s : State)

@[simp] theorem exec_nop : exec .nop s = .next s := rfl
@[simp] theorem exec_tick : exec .tick s = .next s.tick := rfl
@[simp] theorem exec_setstep (v : BitVec 16) : exec (.setstep v) s = .next (s.setPhaseStep v) := rfl
@[simp] theorem exec_setslot (v : Byte) : exec (.setslot v) s = .next (s.setSlot (clampedSlot v)) := rfl
@[simp] theorem exec_setcoef (v : Byte) : exec (.setcoef v) s = .next (s.setCoef v) := rfl
@[simp] theorem exec_wslot (slot : BitVec 6) (key : BitVec 1) (wl wr : Byte) :
    exec (.wslot slot key wl wr) s = .next (s.writeWaves slot key wl wr) := rfl
@[simp] theorem exec_wfact (slot : BitVec 6) (fac : Byte) : exec (.wfact slot fac) s = .next (s.writeFactor slot fac) := rfl
@[simp] theorem exec_read (sel : Byte) : exec (.read sel) s = .next (s.readInto sel) := rfl
@[simp] theorem exec_clrerr : exec .clrerr s = .next s.clearError := rfl
@[simp] theorem exec_srst : exec .srst s = .next s.restart := rfl

end

/-- WSLOT changes at most the slot table and ERR. -/
theorem State.writeWaves_frame (s : State) (slot : BitVec 6) (key : BitVec 1) (wl wr : Byte) :
    s.writeWaves slot key wl wr =
      { s with table := (s.writeWaves slot key wl wr).table, err := (s.writeWaves slot key wl wr).err } := by
  rcases s.writeWaves_cases slot key wl wr with h | h | ⟨_, _, _, _, h⟩
  · rw [h.2]; rfl
  · rw [h.2.2]; rfl
  · rw [h]; rfl

/-- WFACT changes at most the slot table and ERR. -/
theorem State.writeFactor_frame (s : State) (slot : BitVec 6) (fac : Byte) :
    s.writeFactor slot fac =
      { s with table := (s.writeFactor slot fac).table, err := (s.writeFactor slot fac).err } := by
  rcases s.writeFactor_cases slot fac with h | ⟨_, _, h⟩
  · rw [h.2]; rfl
  · rw [h]; rfl

/-- READ changes at most RDATA and ERR. -/
theorem State.readInto_frame (s : State) (sel : Byte) :
    s.readInto sel = { s with rdata := (s.readInto sel).rdata, err := (s.readInto sel).err } := by
  simp only [State.readInto]; cases selectedBy sel <;> rfl

/-- A selector names nothing exactly when R188 does not list it. -/
theorem selectedBy_eq_none_iff (sel : Byte) :
    selectedBy sel = none ↔ 0x0A < sel.toNat ∧ (sel.toNat < 0x40 ∨ 0x7C < sel.toNat) := by
  revert sel; decide +kernel

/-- A word that decodes to a command matches the row of its opcode, and is built from its own fields (R85). -/
theorem decodeWord_ok {w : Word} {i : Instr} (h : decodeWord w = .ok i) :
    ∃ row, commandRows[(opcodeOf w).toNat]? = some row ∧ w &&& row.mask = row.pattern ∧ i = row.build w := by
  simp only [decodeWord] at h
  split at h
  · cases h
  · split at h
    · rename_i hm; cases h; exact ⟨_, by assumption, hm, rfl⟩
    · cases h

/-- Everything a step can do: nothing without input; the reset input; a command; a word that is no command. -/
theorem step_cases {s t : State} (h : step s = .next t) :
    (s.port = [] ∧ t = s) ∨
    (∃ rest, s.port = .resetInput :: rest ∧ t = s.takeInput.applyReset) ∨
    (∃ w rest i, s.port = .command w :: rest ∧ decodeWord w = .ok i ∧ exec i s.takeInput = .next t) ∨
    (∃ w rest e, s.port = .command w :: rest ∧ decodeWord w = .error e ∧ t = s.takeInput.raiseError .illegalCmd) := by
  simp only [step] at h
  match hp : s.port with
  | [] => rw [hp] at h; cases h; exact .inl ⟨rfl, rfl⟩
  | .resetInput :: rest => rw [hp] at h; cases h; exact .inr (.inl ⟨rest, rfl, rfl⟩)
  | .command w :: rest =>
    rw [hp] at h
    simp only [performInput, execWord] at h
    match he : decodeWord w with
    | .ok i => rw [he] at h; exact .inr (.inr (.inl ⟨w, rest, i, rfl, he, h⟩))
    | .error e => rw [he] at h; cases h; exact .inr (.inr (.inr ⟨w, rest, e, rfl, he, rfl⟩))

end Sys2Proof.Machine
end

