-- ==== Sys2Proof/Laws/WellFormed.lean ====
section
/-! SUPPORT. The checks of well-formedness as arithmetic (R62, R63, R93). -/

namespace Sys2Proof

theorem slotInTable_iff {slot : BitVec 6} : slotInTable slot = true ↔ slot.toNat < 61 := decide_eq_true_iff

theorem waveInRom_iff {n : Nat} {w : Byte} : waveInRom n w = true ↔ w.toNat < n := decide_eq_true_iff

theorem selectorListed_iff {sel : Byte} :
    selectorListed sel = true ↔ sel.toNat ≤ 0x0A ∨ (0x40 ≤ sel.toNat ∧ sel.toNat ≤ 0x7C) := by
  simp only [selectorListed, Bool.or_eq_true, Bool.and_eq_true, decide_eq_true_eq]

theorem wellFormed_wslot_iff {n : Nat} {slot : BitVec 6} {key : BitVec 1} {wl wr : Byte} :
    (Instr.wslot slot key wl wr).wellFormed n = true ↔ (slot.toNat < 61 ∧ wl.toNat < n) ∧ wr.toNat < n := by
  simp only [Instr.wellFormed, Bool.and_eq_true, slotInTable_iff, waveInRom_iff]

end Sys2Proof
end

