-- ==== Sys2Proof/Tests/Slice0.lean ====
section
/-! SUPPORT. Tests of the model against the spec's examples and test vectors (95_test_vectors.md), the smoke tests of the
well-formedness checks, and, for each statement with hypotheses, a state and operands that meet them. -/

namespace Sys2Proof.Tests

open Sys2Proof.Machine Sys2Proof.HostSide Sys2Proof.Claims

/- Well-formedness: an ill-formed term for each check, and a well-formed neighbour. -/

theorem test_wslot_slot_61_is_ill_formed : (Instr.wslot 61 0 0 0).wellFormed 4 = false := by decide
theorem test_wslot_left_wave_4_of_4_is_ill_formed : (Instr.wslot 3 0 4 2).wellFormed 4 = false := by decide
theorem test_wslot_right_wave_4_of_4_is_ill_formed : (Instr.wslot 3 0 1 4).wellFormed 4 = false := by decide
theorem test_wfact_slot_63_is_ill_formed : (Instr.wfact 63 9).wellFormed 4 = false := by decide
theorem test_read_0x0B_is_ill_formed : (Instr.read 0x0B).wellFormed 4 = false := by decide
theorem test_read_0x7D_is_ill_formed : (Instr.read 0x7D).wellFormed 4 = false := by decide
theorem test_edge_commands_are_well_formed :
    [Instr.wslot 60 1 3 3, .wfact 60 255, .read 0x0A, .read 0x40, .read 0x7C].all (Instr.wellFormed 4) = true := by decide

/- Decoding: words written out from the layouts of R82. -/

theorem test_decode_nop : decodeWord 0b0000_0000000000000000000000000000#32 = .ok .nop := by decide
theorem test_decode_tick : decodeWord 0b0001_0000000000000000000000000000#32 = .ok .tick := by decide
theorem test_decode_setstep : decodeWord 0b0010_000000000000_0100000000000001#32 = .ok (.setstep 0x4001) := by decide
theorem test_decode_setslot : decodeWord 0b0011_00000000000000000000_11001000#32 = .ok (.setslot 200) := by decide
theorem test_decode_setcoef : decodeWord 0b0100_00000000000000000000_10000001#32 = .ok (.setcoef 0x81) := by decide
theorem test_decode_wslot : decodeWord 0b0101_011110_00000_1_00000101_00001010#32 = .ok (.wslot 30 1 5 10) := by decide
theorem test_decode_wfact : decodeWord 0b0110_111100_00000000000000_01111111#32 = .ok (.wfact 60 127) := by decide
theorem test_decode_read : decodeWord 0b0111_00000000000000000000_01011110#32 = .ok (.read 0x5E) := by decide
theorem test_decode_clrerr : decodeWord 0b1000_0000000000000000000000000000#32 = .ok .clrerr := by decide
theorem test_decode_srst : decodeWord 0b1001_0000000000000000000000000000#32 = .ok .srst := by decide
theorem test_decode_reserved : decodeWord 0xA0000000 = .error .reservedOpcode := by decide
theorem test_decode_should_be_zero : decodeWord 0x50100000 = .error .shouldBeZero := by decide
theorem test_decode_three_bytes : decodeBytes [0x00, 0x00, 0x00] = .error .truncated := by decide
theorem test_decode_little_endian : decodeBytes [0x0A, 0x05, 0x80, 0x57, 0x99] = .ok (.wslot 30 0 5 10, [0x99]) := by decide
theorem test_encode_wslot : encode (.wslot 60 1 10 10) = 0x5F010A0A := by decide
theorem test_table_word : decodeTableWord 32 0x6780007F = some (.wfact 30 127) := by decide

/- One step each, on small states. -/

/-- A block with `n` waveforms, every byte of waveform 0 and 1 as given, and slot 0 loaded. -/
def block (n : Nat) (b0 b1 : Byte) (key : BitVec 1) (wl wr fac : Byte) : State :=
  let s := { State.reset with
    waveCount := n, rom := (List.range 64).map (fun k => (k, b0)) ++ (List.range 64).map (fun k => (64 + k, b1)) }
  (s.setWaves 0 key wl wr).setFactor 0 fac

/-- What a step answers, as a state; the state itself where it answers none. -/
def after (s : State) (i : Instr) : State :=
  match exec i s with
  | .next t => t
  | _ => s

/-- R170's example: PHASE 0x4000, RAW 255, OUT 128, COUNT 1, and 128 emitted. -/
theorem test_tick_example :
    let t := after { block 2 0xFF 0 1 0 0 0 with phaseStep := 0x4000 } .tick
    t.phase = 0x4000 ∧ t.raw = 255 ∧ t.out = 128 ∧ t.count = 1 ∧ t.emitted = [128] := by decide

/-- P3's sixth command: stage 1's product is clamped, INT1 127, INT2 -255, OUT 128. -/
theorem test_tick_clamps_the_product :
    let t := after { block 2 0xFF 0 1 0 0 0 with
      phase := 0x8000, phaseStep := 0x8000, coef := 255, int1 := BitVec.ofInt 16 (-32640),
      int2 := BitVec.ofInt 16 (-32385) } .tick
    t.phase = 0 ∧ t.int1.toInt = 127 ∧ t.int2.toInt = -255 ∧ t.out = 128 := by decide

theorem test_nop : after (block 2 1 2 0 0 1 5) .nop = block 2 1 2 0 0 1 5 := by decide
theorem test_setstep : (after State.reset (.setstep 0x4000)).phaseStep = 0x4000 := by decide
theorem test_setslot_200 : (after State.reset (.setslot 200)).slot = 60 := by decide
theorem test_setslot_60_and_61 :
    (after State.reset (.setslot 60)).slot = 60 ∧ (after State.reset (.setslot 61)).slot = 60 := by decide
theorem test_setcoef : (after State.reset (.setcoef 255)).coef = 255 := by decide

/-- V30 and V31: a write in range, and an index of 4 of 4 waveforms. -/
theorem test_wslot :
    let t := after (block 4 0 0 0 0 0 9) (.wslot 0 1 2 3)
    t.keyOf 0 = 1 ∧ t.leftOf 0 = 2 ∧ t.rightOf 0 = 3 ∧ t.factorOf 0 = 9 ∧ t.err = 0 := by decide
theorem test_wslot_out_of_range :
    let t := after (block 4 0 0 0 0 0 9) (.wslot 0 1 1 4)
    t.err = 3 ∧ t.table = (block 4 0 0 0 0 0 9).table := by decide
/-- V33. -/
theorem test_wfact_invalid_format : (after (block 4 0 0 0 0 0 9) (.wfact 63 9)).err = 2 := by decide
theorem test_wfact : (after (block 4 0 0 0 0 0 9) (.wfact 0 200)).factorOf 0 = 200 := by decide
/-- V37 and V71. -/
theorem test_read_entry : (after (block 4 0 0 1 2 3 200) (.read 0x40)).rdata = 0x010203C8 := by decide
theorem test_read_int1_and_param :
    (after { block 4 0 0 1 2 3 200 with int1 := BitVec.ofInt 16 (-32767) } (.read 0x07)).rdata = 0xFFFF8001 ∧
    (after (block 4 0 0 1 2 3 200) (.read 0x0A)).rdata = 0x0000043D := by decide
theorem test_clrerr : (after { State.reset with err := 3 } .clrerr).err = 0 := by decide
/-- V75. -/
theorem test_srst :
    let t := after { State.reset with phase := 7, phaseStep := 0x8000, count := 4, int1 := 254, raw := 255 } .srst
    t.phase = 0 ∧ t.phaseStep = 0x8000 ∧ t.count = 0 ∧ t.int1 = 0 ∧ t.raw = 128 := by decide
/-- V74: TICK with bit 0 set is no TICK. -/
theorem test_step_of_an_illegal_word :
    (match step { State.reset with port := [.command 0x10000001] } with
      | .next t => decide (t.err = 1 ∧ t.phase = 0 ∧ t.emitted = [] ∧ t.port = [])
      | _ => false) = true := by decide
/-- Each command runs as the first one after reset; the slot table and the parameters are not set. -/
theorem test_first_command_after_reset :
    [0x00000000, 0x10000000, 0x20004000, 0x300000C8, 0x400000FF, 0x50010101, 0x6780007F, 0x7000005E, 0x80000000,
      0x90000000].all (fun w => match step (State.reset.withFetchWord 32 w) with | .next _ => true | _ => false) = true := by
  decide

/- The arithmetic of V50, V51 and V60. -/

theorem test_positions :
    [0x0000#16, 0x01FF, 0x0200, 0x7FFF, 0x8000, 0x8200, 0xC000, 0xFFFF].map
      (fun ph => (logicalPosition ph, storedIndex (logicalPosition ph))) =
    [(0, 0), (0, 0), (1, 1), (63, 63), (64, 63), (65, 62), (96, 31), (127, 0)] := by decide
theorem test_blends :
    blend 64 192 127 = 127 ∧ blend 255 0 255 = 0 ∧ blend 100 100 200 = 100 ∧ blend 0 255 128 = 127 ∧
    blend 10 20 0 = 10 ∧ blend 0 255 1 = 0 := by decide
theorem test_stages :
    stage (-100) (-128) 255 = (-32740, -127) ∧ stage (-32640) 127 255 = (127, 0) ∧
    stage 32767 (-128) 255 = (0, 0) ∧ stage 300 0 16 = (284, 1) ∧ stage (-300) 0 16 = (-284, -1) := by decide

/- The host reference decoder: V22 to V26. -/

theorem test_repeated_position :
    (match decodeRecord 256 [0x00, 0x03, 0x00, 0x04, 0x1E, 0x07, 0x1E, 0x08, 0x3C] with
      | .ok (t, used) =>
        decide (used = 9 ∧ t[30] = ⟨1, 7, 7, 0⟩ ∧ t[29] = ⟨0, 3, 7, 247⟩ ∧ t[31] = ⟨0, 7, 8, 8⟩)
      | .error _ => false) = true := by decide +kernel
/-- How a decode fails, if it does. -/
def failure (r : Except DecodeFailure (DecodedTable × Nat)) : Option DecodeFailure :=
  match r with
  | .ok _ => none
  | .error e => some e
theorem test_no_terminating_pair : failure (decodeRecord 256 [0x00, 0x01, 0x00]) = some .invalidFormat := by decide
theorem test_position_61 : failure (decodeRecord 256 [0x00, 0x01, 0x00, 0x02, 0x3D]) = some .invalidFormat := by decide
theorem test_slot_0_no_key : failure (decodeRecord 256 [0x00, 0x01, 0x05, 0x02, 0x3C]) = some .invalidFormat := by decide
theorem test_wave_200_of_16 : failure (decodeRecord 16 [0x00, 0x01, 0x00, 0xC8, 0x3C]) = some .outOfRange := by decide

/- Witnesses: the hypotheses of each statement that has any, met together. -/

/-- A block of two waveforms with slot 0 loaded and no byte listed in the ROM. -/
def loaded : State := (({ State.reset with waveCount := 2 } : State).setWaves 0 1 0 1).setFactor 0 127

theorem test_loaded_meets_the_invariant : loaded.Inv := by
  refine ⟨by decide, by decide, ?_, ?_, by decide, Memory.wf_nil, fun c hc => absurd hc List.not_mem_nil⟩ <;>
    simp only [Stored.namesWave] <;> decide

theorem test_step_of_tick_goes_on : ∃ t, step { loaded with port := [.command 0x10000000] } = .next t := by
  simp only [step, performInput, execWord, show decodeWord 0x10000000 = .ok .tick by decide, exec_tick]
  exact ⟨_, rfl⟩

theorem test_invariant_and_step_hypotheses :
    ({ loaded with port := [.command 0x10000000] } : State).Inv ∧
    ∃ t, step { loaded with port := [.command 0x10000000] } = .next t :=
  ⟨⟨test_loaded_meets_the_invariant.1, test_loaded_meets_the_invariant.2, test_loaded_meets_the_invariant.3,
    test_loaded_meets_the_invariant.4, test_loaded_meets_the_invariant.5, test_loaded_meets_the_invariant.6,
    test_loaded_meets_the_invariant.7⟩, test_step_of_tick_goes_on⟩

theorem test_loaded_tick_hypotheses : loaded.Inv ∧ loaded.slotReady loaded.slot :=
  ⟨test_loaded_meets_the_invariant, by decide, by decide, by decide⟩

/-- The block between the WSLOT and the WFACT of slot 0: references written, factor not. -/
def halfLoaded : State := ({ State.reset with waveCount := 2 } : State).setWaves 0 1 0 1

theorem test_written_references_hypotheses :
    halfLoaded.Inv ∧ (halfLoaded.table[halfLoaded.slot]).left.written = true ∧
    (halfLoaded.table[halfLoaded.slot]).right.written = true ∧
    (halfLoaded.table[halfLoaded.slot]).factor.written = false := by
  refine ⟨⟨by decide, by decide, ?_, ?_, by decide, Memory.wf_nil, fun c hc => absurd hc List.not_mem_nil⟩, by decide,
    by decide, by decide⟩ <;>
    simp only [Stored.namesWave] <;> decide

theorem test_encode_of_decode_hypotheses : decodeWord 0x5780050A = .ok (.wslot 30 0 5 10) := by decide

theorem test_opcode_map_hypotheses :
    0x20004000#32 &&& 0xFFFF0000#32 = 0x20000000#32 ∧ 0x300000C8#32 &&& 0xFFFFFF00#32 = 0x30000000#32 ∧
    0x400000FF#32 &&& 0xFFFFFF00#32 = 0x40000000#32 ∧ 0x5FC1FFFF#32 &&& 0xF03E0000#32 = 0x50000000#32 ∧
    0x6FC000FF#32 &&& 0xF03FFF00#32 = 0x60000000#32 ∧ 0x700000FF#32 &&& 0xFFFFFF00#32 = 0x70000000#32 ∧
    opcodeRows.all (fun row => decide (0xA0000000#32 &&& row.2 ≠ row.1)) = true := by decide

theorem test_fieldless_rows_hypotheses :
    0x00000000#32 &&& 0xFFFFFFFF#32 = 0x00000000#32 ∧ 0x10000000#32 &&& 0xFFFFFFFF#32 = 0x10000000#32 ∧
    0x80000000#32 &&& 0xFFFFFFFF#32 = 0x80000000#32 ∧ 0x90000000#32 &&& 0xFFFFFFFF#32 = 0x90000000#32 := by decide

/-- For `EncodedAs`: a word of the opcode that matches the row, and one that does not. -/
theorem test_encoded_as_hypotheses :
    (0x50010505#32).toNat / 2 ^ 28 = (0x50000000#32).toNat / 2 ^ 28 ∧
    0x50010505#32 &&& 0xF03E0000#32 = 0x50000000#32 ∧
    (0x50100000#32).toNat / 2 ^ 28 = (0x50000000#32).toNat / 2 ^ 28 ∧
    0x50100000#32 &&& 0xF03E0000#32 ≠ 0x50000000#32 := by decide

theorem test_should_be_zero_hypotheses :
    ((0x90000010#32).extractLsb' 28 4 ∈ [0x0#4, 0x1#4, 0x8#4, 0x9#4] ∧ (0x90000010#32).extractLsb' 0 28 ≠ 0) ∧
    ((0x20010000#32).extractLsb' 28 4 = 0x2#4 ∧ (0x20010000#32).extractLsb' 16 12 ≠ 0) ∧
    ((0x30000100#32).extractLsb' 28 4 ∈ [0x3#4, 0x4#4, 0x7#4] ∧ (0x30000100#32).extractLsb' 8 20 ≠ 0) ∧
    ((0x50020000#32).extractLsb' 28 4 = 0x5#4 ∧ (0x50020000#32).extractLsb' 17 5 ≠ 0) ∧
    ((0x60200000#32).extractLsb' 28 4 = 0x6#4 ∧ (0x60200000#32).extractLsb' 8 14 ≠ 0) := by decide

theorem test_reserved_opcode_hypotheses : 10 ≤ ((0xA0000000#32).extractLsb' 28 4).toNat := by decide

theorem test_byte_transport_hypotheses :
    decodeWord 0x10000000 = .ok .tick ∧ decodeWord 0xF0000000 = .error .reservedOpcode := by decide

theorem test_step_hypotheses :
    ({ loaded with port := [.command 0x10000000] } : State).port = .command 0x10000000 :: [] ∧
    ({ loaded with port := [.command 0x10000001] } : State).port = .command 0x10000001 :: [] ∧
    decodeWord 0x10000000 = .ok .tick ∧ decodeWord 0x10000001 = .error .shouldBeZero ∧ loaded.port = [] := by decide

theorem test_written_only_by_hypotheses :
    exec (.setstep 3) loaded = .next { loaded with phaseStep := 3 } ∧ Instr.setstep 3 ≠ .tick ∧ Instr.setstep 3 ≠ .srst ∧
    exec .nop loaded = .next loaded := ⟨rfl, by decide, by decide, rfl⟩

theorem test_sample_step_hypotheses :
    (∃ t, step { loaded with port := [.command 0x10000000] } = .next t) ∧
    (∃ t, step { loaded with port := [.command 0x90000000] } = .next t) ∧
    ({ loaded with port := [.command 0x90000000] } : State).port.head? ≠ some (.command 0x10000000) :=
  ⟨test_step_of_tick_goes_on, ⟨_, rfl⟩, by decide⟩

theorem test_rom_image_hypotheses :
    (List.replicate 64 (7 : Byte)).length = 64 * 1 ∧ 63 < (List.replicate 64 (7 : Byte)).length ∧
    127 < 64 * loaded.waveCount := by decide

theorem test_reset_input_hypotheses :
    ({ loaded with port := [.resetInput] } : State).port = .resetInput :: [] := rfl

theorem test_error_of_hypotheses :
    errorOf 4 0xA0000000 = some 1 ∧ errorOf 4 0x5F400000 = some 2 ∧ errorOf 4 0x50C00104 = some 3 ∧
    errorOf 4 0x50C00103 = none ∧ errorOf 4 0x6F000000 = none ∧ errorOf 4 0x6F400000 = some 2 ∧
    errorOf 4 0x7000000A = none ∧ errorOf 4 0x7000000B = some 1 ∧ errorOf 4 0x7000003F = some 1 ∧
    errorOf 4 0x70000040 = none ∧ errorOf 4 0x7000007C = none ∧ errorOf 4 0x7000007D = some 1 ∧
    errorOf 4 0x80000000 = none := by
  decide

theorem test_error_priority_hypotheses : ({ loaded with waveCount := 255 } : State).waveCount ≤ 255 := by decide

theorem test_first_error_hypotheses :
    let s : State := { loaded with err := 3, port := [.command 0x80000000] }
    s.err ≠ 0 ∧ ∃ t, step s = .next t ∧ t.err ≠ s.err := ⟨by decide, _, rfl, by decide⟩

theorem test_err_independence_hypotheses : Instr.tick ≠ .read 0 ∧ Instr.read 1 ≠ .read 0 := by decide

theorem test_clrerr_alone_hypotheses :
    ∃ t, exec .clrerr { loaded with err := 3 } = .next t ∧ t.err.toNat < ({ loaded with err := 3 } : State).err.toNat :=
  ⟨_, rfl, by decide⟩

theorem test_setslot_hypotheses :
    (60 : Fin 61).val = min (60 : Byte).toNat 60 ∧ (60 : Fin 61).val = min (61 : Byte).toNat 60 ∧
    (60 : Fin 61).val = min (255 : Byte).toNat 60 ∧ (0 : Fin 61).val = min (0 : Byte).toNat 60 := by decide

theorem test_wslot_hypotheses :
    60 < (61 : BitVec 6).toNat ∧ ((60 : BitVec 6).toNat ≤ 60 ∧ loaded.waveCount ≤ (2 : Byte).toNat) ∧
    ((60 : Fin 61).val = (60 : BitVec 6).toNat ∧ (1 : Byte).toNat < loaded.waveCount) := by decide

theorem test_read_hypotheses :
    ({ loaded with waveCount := 256 } : State).waveCount ≤ 256 ∧ readValue loaded 0x0A = some 573 ∧
    readValue loaded 0x0B = none ∧ readValue loaded 0x3F = none ∧ readValue loaded 0x40 = some 0x0100017F ∧
    (readValue loaded 0x7C).isSome = true ∧ readValue loaded 0x7D = none := by decide

theorem test_read_again_hypotheses :
    selectorListed 0x0A = true ∧ selectorListed 0x40 = true ∧ selectorListed 0x7C = true := by decide

theorem test_selected_entry_hypotheses :
    let other := (loaded.setWaves 1 0 1 1).table
    (other[loaded.slot]).left = (loaded.table[loaded.slot]).left ∧
    (other[loaded.slot]).right = (loaded.table[loaded.slot]).right ∧
    (other[loaded.slot]).factor = (loaded.table[loaded.slot]).factor ∧ other ≠ loaded.table := by decide

theorem test_next_lookup_hypotheses :
    (0 : BitVec 6).toNat = loaded.slot.val ∧ (1 : Byte).toNat < loaded.waveCount ∧
    ∃ t u, exec (.wslot 0 0 1 1) loaded = .next t ∧ exec (.wfact 0 9) t = .next u :=
  ⟨by decide, by decide, _, _, rfl, rfl⟩

theorem test_halves_hypotheses : (0x7FFF#16).toNat < 0x8000 ∧ 0x8000 ≤ (0x8000#16).toNat := by decide

theorem test_mirroring_hypotheses : (63 : Nat) < 64 ∧ (0 : Nat) < 64 := by decide

theorem test_factor_zero_hypotheses : (loaded.setFactor 0 0).factorOf (loaded.setFactor 0 0).slot = 0 := by decide

theorem test_stage_hypotheses :
    (-32767 : Int) ≤ -32767 ∧ (-32767 : Int) ≤ 32767 ∧ (-128 : Int) ≤ 127 ∧ (0 : Int) ≤ 255 ∧
    tdiv256 32512 = 127 ∧ (-255 : Int) ≤ 255 := by decide

theorem test_period_hypotheses :
    ∃ t, execAll (tickn 4) { loaded with phaseStep := 0x4000 } = .next t := ⟨_, rfl⟩

theorem test_count_hypotheses :
    Instr.srst ∉ [Instr.tick, .setcoef 3, .tick] ∧ ∃ t, execAll [.tick, .setcoef 3, .tick] loaded = .next t :=
  ⟨by decide, _, rfl⟩

theorem test_sample_path_hypotheses :
    SamePath loaded { loaded with err := 2, rdata := 5, count := 9 } ∧
    (∃ t, execAll [.tick] loaded = .next t) ∧
    (∃ t, execAll [.tick] { loaded with err := 2, rdata := 5, count := 9 } = .next t) :=
  ⟨⟨rfl, rfl, rfl, rfl, rfl, rfl, fun _ => rfl, fun _ => rfl, fun _ => rfl, rfl, rfl⟩, ⟨_, rfl⟩, ⟨_, rfl⟩⟩

theorem test_restart_hypotheses : (60 : Byte).toNat = ({ loaded with slot := 60 } : State).slot.val := by decide

theorem test_well_formed_hypotheses :
    ∀ i ∈ [Instr.wslot 60 1 1 1, .wfact 60 0, .read 0x7C, .clrerr], i.wellFormed loaded.waveCount = true := by decide

/-- A record that decodes, for the statements about decoded tables, loading, and bytes consumed. -/
theorem test_decode_hypotheses :
    failure (decodeRecord loaded.waveCount [0x00, 0x00, 0x00, 0x01, 0x3C]) = none := by decide

theorem test_chained_decode_hypotheses :
    failure (decodeNth 256 [0x00, 0x05, 0x00, 0x0A, 0x3C, 0x00, 0x01, 0x00, 0x02, 0x3C] 1) = none ∧
    failure (decodeNth 256 [0x00, 0x05, 0x00, 0x0A, 0x3C] 1) = some .invalidFormat := by decide

/-- Good pairs before the end of a record, with slot 0 among them and without it, and no pair at all. -/
theorem test_malformed_hypotheses :
    GoodPairs 16 [(5, 0), (15, 59)] ∧ (∃ q ∈ [((5 : Byte), (0 : Byte)), (15, 59)], q.2 = 0) ∧
    GoodPairs 16 [(5, 1)] ∧ (∀ q ∈ [((5 : Byte), (1 : Byte))], q.2 ≠ 0) ∧ GoodPairs 16 [] ∧
    60 < (61 : Byte).toNat ∧ (60 : Byte).toNat ≤ 60 ∧ 16 ≤ (16 : Byte).toNat ∧ (15 : Byte).toNat < 16 := by
  refine ⟨?_, ⟨(5, 0), by simp⟩, ?_, by simp, ?_, by decide, by decide, by decide, by decide⟩ <;> simp [GoodPairs]

theorem test_phase_step_hypotheses :
    0 < 1 * 44100 ∧ phaseStepOf 440 1 44100 = some 654 ∧ phaseStepOf 44100 1 44100 = none := by decide

end Sys2Proof.Tests
end

/-! SUPPORT. What a command can do, as a relation with one constructor per outcome, and the registers it keeps (R20). -/

namespace Sys2Proof.Machine

/-- READ copies what a listed selector names, or raises ILLEGAL_CMD (R188). -/
theorem State.readInto_cases (s : State) (sel : Byte) :
    (∃ x, s.readInto sel = s.setRdata (s.readSelected x)) ∨ s.readInto sel = s.raiseError .illegalCmd := by
  simp only [State.readInto]
  cases selectedBy sel with
  | some x => exact .inl ⟨x, rfl⟩
  | none => exact .inr rfl

/-- `CommandEffect s i t`: the command `i` may take the block from `s` to `t`, each outcome given by the named update of
the state that it performs. -/
inductive CommandEffect (s : State) : Instr → State → Prop where
  | nop : CommandEffect s .nop s
  | tick : CommandEffect s .tick s.tick
  | setstep (v : BitVec 16) : CommandEffect s (.setstep v) (s.setPhaseStep v)
  | setslot (v : Byte) : CommandEffect s (.setslot v) (s.setSlot (clampedSlot v))
  | setcoef (v : Byte) : CommandEffect s (.setcoef v) (s.setCoef v)
  | wslot (slot : BitVec 6) (key : BitVec 1) (wl wr : Byte) (k : Fin 61)
      (hl : wl.toNat < s.waveCount) (hr : wr.toNat < s.waveCount) :
      CommandEffect s (.wslot slot key wl wr) (s.setWaves k key wl wr)
  | wslotError (slot : BitVec 6) (key : BitVec 1) (wl wr : Byte) (c : ErrorCause) :
      CommandEffect s (.wslot slot key wl wr) (s.raiseError c)
  | wfact (slot : BitVec 6) (fac : Byte) (k : Fin 61) : CommandEffect s (.wfact slot fac) (s.setFactor k fac)
  | wfactError (slot : BitVec 6) (fac : Byte) (c : ErrorCause) : CommandEffect s (.wfact slot fac) (s.raiseError c)
  | read (sel : Byte) (v : Word) : CommandEffect s (.read sel) (s.setRdata v)
  | readError (sel : Byte) (c : ErrorCause) : CommandEffect s (.read sel) (s.raiseError c)
  | clrerr : CommandEffect s .clrerr s.clearError
  | srst : CommandEffect s .srst s.restart

/-- Every command has one of the effects of `CommandEffect`. -/
theorem exec_effect {i : Instr} {s t : State} (h : exec i s = .next t) : CommandEffect s i t := by
  cases i with
  | nop => cases h; exact .nop
  | tick => cases h; exact .tick
  | setstep v => cases h; exact .setstep v
  | setslot v => cases h; exact .setslot v
  | setcoef v => cases h; exact .setcoef v
  | wslot slot key wl wr =>
    cases h
    obtain ⟨-, he⟩ | ⟨-, -, he⟩ | ⟨k, -, hl, hr, he⟩ := s.writeWaves_cases slot key wl wr <;> rw [he]
    · exact .wslotError ..
    · exact .wslotError ..
    · exact .wslot slot key wl wr k hl hr
  | wfact slot fac =>
    cases h
    obtain ⟨-, he⟩ | ⟨k, -, he⟩ := s.writeFactor_cases slot fac <;> rw [he]
    · exact .wfactError ..
    · exact .wfact slot fac k
  | read sel =>
    cases h
    obtain ⟨x, he⟩ | he := s.readInto_cases sel <;> rw [he]
    · exact .read ..
    · exact .readError ..
  | clrerr => cases h; exact .clrerr
  | srst => cases h; exact .srst

section
variable {i : Instr} {s t : State} (h : exec i s = .next t)
include h

/-- Only TICK and SRST write the datapath registers. -/
theorem exec_keeps_datapath (ht : i ≠ .tick) (hr : i ≠ .srst) :
    t.phase = s.phase ∧ t.raw = s.raw ∧ t.out = s.out ∧ t.int1 = s.int1 ∧ t.int2 = s.int2 ∧ t.count = s.count := by
  cases exec_effect h with
  | tick => exact absurd rfl ht
  | srst => exact absurd rfl hr
  | _ => simp

/-- Only SETSTEP writes STEP. -/
theorem exec_keeps_phaseStep (hi : ∀ v, i ≠ .setstep v) : t.phaseStep = s.phaseStep := by
  cases exec_effect h with
  | setstep v => exact absurd rfl (hi v)
  | _ => simp

/-- Only SETSLOT writes SLOT. -/
theorem exec_keeps_slot (hi : ∀ v, i ≠ .setslot v) : t.slot = s.slot := by
  cases exec_effect h with
  | setslot v => exact absurd rfl (hi v)
  | _ => simp

/-- Only SETCOEF writes COEF. -/
theorem exec_keeps_coef (hi : ∀ v, i ≠ .setcoef v) : t.coef = s.coef := by
  cases exec_effect h with
  | setcoef v => exact absurd rfl (hi v)
  | _ => simp

/-- Only READ writes RDATA. -/
theorem exec_keeps_rdata (hi : ∀ v, i ≠ .read v) : t.rdata = s.rdata := by
  cases exec_effect h with
  | read sel v => exact absurd rfl (hi sel)
  | _ => simp

/-- Only WSLOT and WFACT write the slot table. -/
theorem exec_keeps_table (hw : ∀ a b c d, i ≠ .wslot a b c d) (hf : ∀ a b, i ≠ .wfact a b) : t.table = s.table := by
  cases exec_effect h with
  | wslot slot key wl wr => exact absurd rfl (hw slot key wl wr)
  | wfact slot fac => exact absurd rfl (hf slot fac)
  | _ => simp

/-- Only TICK emits. -/
theorem exec_keeps_emitted (hi : i ≠ .tick) : t.emitted = s.emitted := by
  cases exec_effect h with
  | tick => exact absurd rfl hi
  | _ => simp

/-- Only CLRERR and the commands with an error path write ERR. -/
theorem exec_keeps_err (hc : i ≠ .clrerr) (hw : ∀ a b c d, i ≠ .wslot a b c d) (hf : ∀ a b, i ≠ .wfact a b)
    (hr : ∀ v, i ≠ .read v) : t.err = s.err := by
  cases exec_effect h with
  | clrerr => exact absurd rfl hc
  | wslotError slot key wl wr => exact absurd rfl (hw slot key wl wr)
  | wfactError slot fac => exact absurd rfl (hf slot fac)
  | readError sel => exact absurd rfl (hr sel)
  | _ => simp

/-- No command writes the ROM, `WAVE_COUNT` or the host's stream (R35). -/
theorem exec_keeps_parameters : t.rom = s.rom ∧ t.waveCount = s.waveCount ∧ t.port = s.port := by
  cases exec_effect h <;> simp

end

/-- No step changes the ROM or `WAVE_COUNT` (R35). -/
theorem step_keeps_parameters {s t : State} (h : step s = .next t) : t.rom = s.rom ∧ t.waveCount = s.waveCount := by
  obtain ⟨-, rfl⟩ | ⟨-, -, rfl⟩ | ⟨-, -, i, -, -, he⟩ | ⟨-, -, -, -, -, rfl⟩ := step_cases h
  · exact ⟨rfl, rfl⟩
  · exact ⟨rfl, rfl⟩
  · obtain ⟨hrom, hcount, -⟩ := exec_keeps_parameters he
    exact ⟨hrom, hcount⟩
  · exact ⟨rfl, rfl⟩

/-- Settles O12: the frame of each register, put together. -/
theorem eachRegisterIsWrittenOnlyByItsCommands : Obligations.EachRegisterIsWrittenOnlyByItsCommands := by
  intro i s t h
  exact ⟨exec_keeps_datapath h, exec_keeps_phaseStep h, exec_keeps_slot h, exec_keeps_coef h, exec_keeps_rdata h,
    exec_keeps_table h, exec_keeps_emitted h, exec_keeps_err h, exec_keeps_parameters h⟩

end Sys2Proof.Machine

/-! The invariant: the named updates of the state keep it, so every command and every step does (R6, R25, R33, R35). -/

namespace Sys2Proof.Machine

section
variable {s t : State} (hs : s.Inv)
include hs

/-- The invariant speaks only of the integrators, the slot table and the parameters. -/
theorem State.Inv.of_eq (h1 : t.int1 = s.int1) (h2 : t.int2 = s.int2) (htable : t.table = s.table)
    (hrom : t.rom = s.rom) (hcount : t.waveCount = s.waveCount) : t.Inv := by
  obtain ⟨hint1, hint2, hleft, hright, hrange, hwf, hbound⟩ := hs
  constructor <;> simpa only [h1, h2, htable, hrom, hcount]

/-- A filter stage leaves its integrator saturated, whatever it held before (R162). -/
theorem State.Inv.tick : s.tick.Inv :=
  { hs with
    int1_saturated := s.tick_int1_toInt ▸ (stageIntegrator_range ..).1
    int2_saturated := s.tick_int2_toInt ▸ (stageIntegrator_range ..).1 }

theorem State.Inv.restart : s.restart.Inv :=
  { hs with int1_saturated := by simp, int2_saturated := by simp }

theorem State.Inv.applyReset : s.applyReset.Inv :=
  { hs with int1_saturated := by simp, int2_saturated := by simp }

/-- WSLOT writes only waveform references it has checked (R100). -/
theorem State.Inv.setWaves (i : Fin 61) (key : BitVec 1) {wl wr : Byte} (hl : wl.toNat < s.waveCount)
    (hr : wr.toNat < s.waveCount) : (s.setWaves i key wl wr).Inv :=
  { hs with
    left_in_rom := fun j => by
      rw [State.setWaves_entry]; split
      exacts [fun _ => hl, hs.left_in_rom j]
    right_in_rom := fun j => by
      rw [State.setWaves_entry]; split
      exacts [fun _ => hr, hs.right_in_rom j] }

/-- WFACT keeps the waveform references of every entry (R102). -/
theorem State.Inv.setFactor (i : Fin 61) (fac : Byte) : (s.setFactor i fac).Inv :=
  { hs with
    left_in_rom := fun j => by
      rw [State.setFactor_entry]; split
      exacts [hs.left_in_rom i, hs.left_in_rom j]
    right_in_rom := fun j => by
      rw [State.setFactor_entry]; split
      exacts [hs.right_in_rom i, hs.right_in_rom j] }

theorem exec_keeps_inv {i : Instr} (h : exec i s = .next t) : t.Inv := by
  cases exec_effect h with
  | tick => exact hs.tick
  | srst => exact hs.restart
  | wslot slot key wl wr k hl hr => exact hs.setWaves k key hl hr
  | wfact slot fac k => exact hs.setFactor k fac
  | _ => exact hs.of_eq rfl rfl rfl rfl rfl

end

/-- Settles O17: taking the input keeps the invariant, and so does each thing the block may do with it. -/
theorem everyStepKeepsTheInvariant : Obligations.EveryStepKeepsTheInvariant := by
  intro s t hs h
  have htake : s.takeInput.Inv := hs.of_eq rfl rfl rfl rfl rfl
  obtain ⟨-, rfl⟩ | ⟨-, -, rfl⟩ | ⟨-, -, i, -, -, he⟩ | ⟨-, -, -, -, -, rfl⟩ := step_cases h
  · exact hs
  · exact htake.applyReset
  · exact exec_keeps_inv htake he
  · exact htake.of_eq rfl rfl rfl rfl rfl

/-- The free `WAVE_COUNT` of the machine after power-on is in 1..256 (R6). -/
theorem State.reset_waveCount_range : 1 ≤ State.reset.waveCount ∧ State.reset.waveCount ≤ 256 := by
  have := Config.lastWave.isLt
  simp only [State.reset, Config.waveCount]; omega

/-- No entry has been written at power-on (R241). -/
@[simp] theorem State.reset_entry (i : Fin 61) : State.reset.table[i] = SlotEntry.unwritten := by
  simp [State.reset]

/-- Settles O18: the integrators are 0, no reference has been written, and the ROM lists nothing. -/
theorem resetMeetsTheInvariant : Obligations.ResetMeetsTheInvariant where
  int1_saturated := by decide
  int2_saturated := by decide
  left_in_rom i hi := by rw [State.reset_entry] at hi; cases hi
  right_in_rom i hi := by rw [State.reset_entry] at hi; cases hi
  wave_count_range := State.reset_waveCount_range
  rom_wf := Memory.wf_nil
  rom_in_range _ hc := absurd hc List.not_mem_nil

/-- Settles O15: each register of `State.reset`, by evaluation. -/
theorem resetLeavesThePowerOnValues : Obligations.ResetLeavesThePowerOnValues :=
  ⟨rfl, rfl, rfl, rfl, rfl, rfl, rfl, rfl, rfl, rfl, rfl, rfl⟩

end Sys2Proof.Machine

/-! The output port and the ROM: which word emits (R41), what the ROM holds (R35), and PARAM (R30). -/

namespace Sys2Proof.Machine

/-- The only word of TICK is `0x10000000` (R90). -/
theorem decodeWord_eq_tick_iff {w : Word} : decodeWord w = .ok .tick ↔ w = 0x10000000 := by
  constructor
  · intro h
    obtain ⟨row, hrow, hmatch, hbuild⟩ := decodeWord_ok h
    have hmem : row ∈ commandRows := List.mem_of_getElem? hrow
    simp only [commandRows, List.mem_cons, List.not_mem_nil, or_false] at hmem
    rcases hmem with rfl | rfl | rfl | rfl | rfl | rfl | rfl | rfl | rfl | rfl <;> cases hbuild
    rwa [show (0xFFFFFFFF#32 : Word) = BitVec.allOnes 32 from rfl, BitVec.and_allOnes] at hmatch
  · rintro rfl
    decide

/-- Settles O13, by the cases of a step; the word of a command other than TICK is not TICK's. -/
theorem onlyTickEmitsASample : Obligations.OnlyTickEmitsASample := by
  intro s t h
  obtain ⟨hp, rfl⟩ | ⟨rest, hp, rfl⟩ | ⟨w, rest, i, hp, hi, he⟩ | ⟨w, rest, e, hp, hw, rfl⟩ := step_cases h
  · simp [hp]
  · simp [hp]
  · have hw : w = 0x10000000 ↔ i = .tick := by
      rw [← decodeWord_eq_tick_iff, hi, Except.ok.injEq]
    simp only [hp, List.head?_cons, Option.some.injEq, HostInput.command.injEq, ne_eq, hw]
    constructor
    · rintro rfl
      cases he
      simp
    · exact fun hne => (exec_keeps_emitted he hne).trans s.takeInput_emitted
  · have hne : w ≠ 0x10000000 := fun hn => by rw [decodeWord_eq_tick_iff.2 hn] at hw; cases hw
    simp only [hp, List.head?_cons, Option.some.injEq, HostInput.command.injEq]
    exact ⟨fun hn => absurd hn hne, fun _ => rfl⟩

/-- Settles O14: a placed image reads back, and no step changes the ROM or `WAVE_COUNT`. -/
theorem romHoldsItsImageForGood : Obligations.RomHoldsItsImageForGood := by
  refine ⟨fun s n image a ha hlen => ?_, fun w k => rfl, fun s t h a _ => ?_⟩
  · have hin : a < Config.waveLen * n := hlen ▸ ha
    rw [State.romByte, State.withParameters_waveCount, State.withParameters_rom, if_pos hin,
      Memory.read_ofImage image a ha]
  · obtain ⟨hrom, hcount⟩ := step_keeps_parameters h
    rw [State.romByte, State.romByte, hrom, hcount]

/-- PARAM as a number (R30). -/
theorem State.param_toNat {s : State} (h : s.waveCount ≤ 256) : s.param.toNat = 61 + 2 ^ 8 * s.waveCount := by
  simp only [State.param]
  erw [append_toNat, append_toNat]
  simp [Config.slots]
  omega

/-- Settles O31: the three fields are quotients and remainders of PARAM's number. -/
theorem paramReadsItsFields : Obligations.ParamReadsItsFields := by
  intro s h
  have hp := State.param_toNat h
  refine ⟨s.setRdata s.param, rfl, ?_, ?_, BitVec.eq_of_toNat_eq (y := 0#15) ?_⟩ <;>
    simp only [State.setRdata_rdata, BitVec.extractLsb'_toNat, Nat.shiftRight_eq_div_pow, hp, BitVec.toNat_zero] <;>
    omega

end Sys2Proof.Machine

/-! The sample path (R32): what TICK reads, and that runs from states that agree on it emit the same samples. -/

namespace Sys2Proof.Machine

/-- The interpolator reads only the looked-up entry, the ROM and `WAVE_COUNT` (R32, R137). -/
theorem State.sampleAt_congr {s t : State} (hlook : s.lookupSlot = t.lookupSlot) (hrom : s.rom = t.rom)
    (hcount : s.waveCount = t.waveCount) (ph : BitVec 16) : s.sampleAt ph = t.sampleAt ph := by
  simp only [State.sampleAt, State.waveSample, State.romByte, hlook, hrom, hcount]

/-- With another table of the same looked-up entry, TICK does the same and keeps that table. -/
theorem State.tick_withTable {s : State} {table : Vector SlotEntry 61}
    (hlook : { s with table := table }.lookupSlot = s.lookupSlot) :
    { s with table := table }.tick = { s.tick with table := table } := by
  simp only [State.tick, State.nextPhase, State.sampleAt_congr hlook rfl rfl, State.emit]

/-- Settles O36: the lookup reads the left, the right and the factor of the selected entry. -/
theorem tickReadsOnlyTheSelectedEntry : Obligations.TickReadsOnlyTheSelectedEntry := by
  intro s table hleft hright hfactor
  have hlook : { s with table := table }.lookupSlot = s.lookupSlot := by
    simp only [State.lookupSlot, State.leftOf, State.rightOf, State.factorOf, hleft, hright, hfactor]
  exact ⟨s.tick, rfl, congrArg Host.Outcome.next (State.tick_withTable hlook)⟩

theorem SamePath.symm {s t : State} (h : SamePath s t) : SamePath t s :=
  ⟨h.phase.symm, h.phaseStep.symm, h.slot.symm, h.coef.symm, h.int1.symm, h.int2.symm, fun i => (h.left i).symm,
    fun i => (h.right i).symm, fun i => (h.factor i).symm, h.rom.symm, h.waveCount.symm⟩

theorem SamePath.trans {s t u : State} (h : SamePath s t) (k : SamePath t u) : SamePath s u :=
  ⟨h.phase.trans k.phase, h.phaseStep.trans k.phaseStep, h.slot.trans k.slot, h.coef.trans k.coef,
    h.int1.trans k.int1, h.int2.trans k.int2, fun i => (h.left i).trans (k.left i),
    fun i => (h.right i).trans (k.right i), fun i => (h.factor i).trans (k.factor i), h.rom.trans k.rom,
    h.waveCount.trans k.waveCount⟩

section
variable (s : State)

theorem State.raiseError_samePath (c : ErrorCause) : SamePath (s.raiseError c) s :=
  ⟨rfl, rfl, rfl, rfl, rfl, rfl, fun _ => rfl, fun _ => rfl, fun _ => rfl, rfl, rfl⟩

theorem State.clearError_samePath : SamePath s.clearError s :=
  ⟨rfl, rfl, rfl, rfl, rfl, rfl, fun _ => rfl, fun _ => rfl, fun _ => rfl, rfl, rfl⟩

theorem State.setRdata_samePath (v : Word) : SamePath (s.setRdata v) s :=
  ⟨rfl, rfl, rfl, rfl, rfl, rfl, fun _ => rfl, fun _ => rfl, fun _ => rfl, rfl, rfl⟩

/-- READ is not on the sample path (R32). -/
theorem State.readInto_samePath (sel : Byte) : SamePath (s.readInto sel) s := by
  obtain ⟨x, h⟩ | h := s.readInto_cases sel <;> rw [h]
  · exact s.setRdata_samePath _
  · exact s.raiseError_samePath _

end

section
variable {s t : State} (h : SamePath s t)
include h

theorem SamePath.raiseError (c : ErrorCause) : SamePath (s.raiseError c) (t.raiseError c) :=
  (s.raiseError_samePath c).trans (h.trans (t.raiseError_samePath c).symm)

theorem SamePath.setWaves (i : Fin 61) (key : BitVec 1) (wl wr : Byte) :
    SamePath (s.setWaves i key wl wr) (t.setWaves i key wl wr) :=
  { h with
    left := fun j => by simp [h.left j]
    right := fun j => by simp [h.right j]
    factor := fun j => by simp [h.factor j] }

theorem SamePath.setFactor (i : Fin 61) (fac : Byte) : SamePath (s.setFactor i fac) (t.setFactor i fac) :=
  { h with
    left := fun j => by simp [h.left j]
    right := fun j => by simp [h.right j]
    factor := fun j => by simp [h.factor j] }

/-- Two states that agree on the sample path take the same branch of WSLOT. -/
theorem SamePath.writeWaves (slot : BitVec 6) (key : BitVec 1) (wl wr : Byte) :
    SamePath (s.writeWaves slot key wl wr) (t.writeWaves slot key wl wr) := by
  simp only [State.writeWaves, h.waveCount]
  cases slotIndex slot with
  | none => exact h.raiseError .invalidFormat
  | some i =>
    dsimp only
    split
    · exact h.raiseError .outOfRange
    · exact h.setWaves i key wl wr

theorem SamePath.writeFactor (slot : BitVec 6) (fac : Byte) :
    SamePath (s.writeFactor slot fac) (t.writeFactor slot fac) := by
  simp only [State.writeFactor]
  cases slotIndex slot with
  | none => exact h.raiseError .invalidFormat
  | some i => exact h.setFactor i fac

theorem SamePath.restart : SamePath s.restart t.restart := { h with phase := rfl, int1 := rfl, int2 := rfl }

theorem SamePath.nextPhase : s.nextPhase = t.nextPhase := by
  simp only [State.nextPhase, h.phase, h.phaseStep]

theorem SamePath.sampleAt (ph : BitVec 16) : s.sampleAt ph = t.sampleAt ph :=
  State.sampleAt_congr (by simp only [State.lookupSlot, h.slot, h.left, h.right, h.factor]) h.rom h.waveCount ph

/-- The sample TICK emits is a function of the sample path (R170). -/
theorem SamePath.tickOutput : s.tickOutput = t.tickOutput := by
  simp only [State.tickOutput, h.nextPhase, h.sampleAt, h.int1, h.int2, h.coef]

theorem SamePath.tick : SamePath s.tick t.tick :=
  { h with
    phase := h.nextPhase
    int1 := by simp only [State.tick_int1, h.nextPhase, h.sampleAt, h.int1, h.coef]
    int2 := by simp only [State.tick_int2, h.nextPhase, h.sampleAt, h.int1, h.int2, h.coef] }

/-- One command keeps two states in agreement on the sample path. -/
theorem SamePath.of_exec {i : Instr} {s' t' : State} (hs : exec i s = .next s') (ht : exec i t = .next t') :
    SamePath s' t' := by
  cases i with
  | nop => cases hs; cases ht; exact h
  | tick => cases hs; cases ht; exact h.tick
  | setstep v => cases hs; cases ht; exact { h with phaseStep := rfl }
  | setslot v => cases hs; cases ht; exact { h with slot := rfl }
  | setcoef v => cases hs; cases ht; exact { h with coef := rfl }
  | wslot slot key wl wr => cases hs; cases ht; exact h.writeWaves slot key wl wr
  | wfact slot fac => cases hs; cases ht; exact h.writeFactor slot fac
  | read sel => cases hs; cases ht; exact (s.readInto_samePath sel).trans (h.trans (t.readInto_samePath sel).symm)
  | clrerr => cases hs; cases ht; exact s.clearError_samePath.trans (h.trans t.clearError_samePath.symm)
  | srst => cases hs; cases ht; exact h.restart

/-- One command emits the same from two states that agree on the sample path (R41). -/
theorem SamePath.exec_emitted {i : Instr} {s' t' : State} (hs : exec i s = .next s')
    (ht : exec i t = .next t') :
    ∃ samples, s'.emitted = s.emitted ++ samples ∧ t'.emitted = t.emitted ++ samples := by
  by_cases hi : i = .tick
  · subst hi
    cases hs; cases ht
    exact ⟨[s.tickOutput], State.tick_emitted s, by rw [State.tick_emitted, h.tickOutput]⟩
  · exact ⟨[], by simpa using exec_keeps_emitted hs hi, by simpa using exec_keeps_emitted ht hi⟩

end

end Sys2Proof.Machine

/-! Lists of commands (R68): one command and then the rest, and what a whole list does to COUNT and to the samples. -/

namespace Sys2Proof.Machine

/-- A list of commands runs its first command and then the rest (R68). -/
theorem execAll_cons_eq_next {i : Instr} {is : List Instr} {s t : State} :
    execAll (i :: is) s = .next t ↔ ∃ u, exec i s = .next u ∧ execAll is u = .next t := by
  rw [execAll]
  cases exec i s <;> simp

/-- One command other than SRST adds 1 to COUNT if it is TICK and 0 otherwise (R29). -/
theorem exec_count_toNat {i : Instr} {s t : State} (hi : i ≠ .srst) (h : exec i s = .next t) :
    t.count.toNat = (s.count.toNat + [i].count .tick) % 2 ^ 32 := by
  by_cases ht : i = .tick
  · subst ht
    cases h
    simp [BitVec.toNat_add]
  · obtain ⟨-, -, -, -, -, hcount⟩ := exec_keeps_datapath h ht hi
    rw [hcount, List.count_singleton, if_neg (by simpa using ht), Nat.add_zero, Nat.mod_eq_of_lt s.count.isLt]

/-- Settles O49, by induction on the list of commands. -/
theorem countCountsTicks : Obligations.CountCountsTicks := by
  intro is
  induction is with
  | nil =>
    intro s t _ h
    cases h
    exact (Nat.mod_eq_of_lt s.count.isLt).symm
  | cons i is ih =>
    intro s t hsrst h
    obtain ⟨hi, his⟩ := List.ne_and_not_mem_of_not_mem_cons hsrst
    obtain ⟨u, hu, hrest⟩ := execAll_cons_eq_next.1 h
    have hfirst := exec_count_toNat hi.symm hu
    have hlast := ih u t his hrest
    have hsplit : (i :: is).count .tick = [i].count .tick + is.count .tick := List.count_append (l₁ := [i])
    rw [hlast, hfirst, hsplit, Nat.mod_add_mod, Nat.add_assoc]

/-- Settles O50, by induction on the list of commands. -/
theorem samplesDependOnlyOnTheSamplePath : Obligations.SamplesDependOnlyOnTheSamplePath := by
  intro is
  induction is with
  | nil =>
    intro s t s' t' h hs ht
    cases hs; cases ht
    exact ⟨h, [], by simp, by simp⟩
  | cons i is ih =>
    intro s t s' t' h hs ht
    obtain ⟨u, hu, hs'⟩ := execAll_cons_eq_next.1 hs
    obtain ⟨v, hv, ht'⟩ := execAll_cons_eq_next.1 ht
    obtain ⟨first, hfirst, hfirst'⟩ := h.exec_emitted hu hv
    obtain ⟨hpath, rest, hrest, hrest'⟩ := ih u v s' t' (h.of_exec hu hv) hs' ht'
    refine ⟨hpath, first ++ rest, ?_, ?_⟩
    · rw [hrest, hfirst, List.append_assoc]
    · rw [hrest', hfirst', List.append_assoc]

end Sys2Proof.Machine

/-! The byte transport of a word (R64), and the command that the word of a command decodes to (R83, R90). -/

namespace Sys2Proof

/-- The four transported bytes of a word carry that word (R64). -/
theorem wordOfBytes_extract (w : Word) :
    wordOfBytes (w.extractLsb' 0 8) (w.extractLsb' 8 8) (w.extractLsb' 16 8) (w.extractLsb' 24 8) = w := by
  have := w.isLt
  apply BitVec.eq_of_toNat_eq
  simp only [wordOfBytes_toNat, BitVec.extractLsb'_toNat, Nat.shiftRight_eq_div_pow]
  omega

/-- The decoder of a byte transport decodes the word at its front and hands on the bytes after it (R64). -/
theorem decodeBytes_wordBytes_append (w : Word) (rest : List Byte) :
    decodeBytes (wordBytes w ++ rest) = (decodeWord w).map (·, rest) := by
  simp only [wordBytes, List.cons_append, List.nil_append, decodeBytes, wordOfBytes_extract]
  cases decodeWord w <;> rfl

/-- Settles O8: the bytes by definition, and what the byte decoder reads from them. -/
theorem byteTransportIsLittleEndian : Obligations.ByteTransportIsLittleEndian := by
  intro w rest
  rw [decodeBytes_wordBytes_append]
  refine ⟨rfl, fun i hi => ?_, fun e he => ?_⟩
  · rw [hi]; rfl
  · rw [he]; rfl

/-- A word that matches the row of its opcode decodes to the command the row builds (R85). -/
theorem decodeWord_of_row {w : Word} {row : CommandRow} (hrow : commandRows[(opcodeOf w).toNat]? = some row)
    (hmatch : w &&& row.mask = row.pattern) : decodeWord w = .ok (row.build w) := by
  simp only [decodeWord, hrow, if_pos hmatch]

/-- The word of every command matches the row of its opcode (R90). -/
theorem encode_matches_row : ∀ i : Instr, Laws.RowMatch.Statement i
  | .nop => Laws.RowMatch.nop
  | .tick => Laws.RowMatch.tick
  | .setstep v => Laws.RowMatch.setstep v
  | .setslot v => Laws.RowMatch.setslot v
  | .setcoef v => Laws.RowMatch.setcoef v
  | .wslot slot key wl wr => Laws.RowMatch.wslot slot key wl wr
  | .wfact slot fac => Laws.RowMatch.wfact slot fac
  | .read sel => Laws.RowMatch.read sel
  | .clrerr => Laws.RowMatch.clrerr
  | .srst => Laws.RowMatch.srst

section
variable (slot : BitVec 6) (key : BitVec 1) (wl wr fac : Byte)

@[simp] theorem imm16Field_encode_setstep (v : BitVec 16) : imm16Field (encode (.setstep v)) = v := by
  apply BitVec.eq_of_toNat_eq
  rw [imm16Field_toNat, encode_setstep_toNat]; omega

@[simp] theorem lowByteField_encode_setslot (v : Byte) : lowByteField (encode (.setslot v)) = v := by
  apply BitVec.eq_of_toNat_eq
  rw [lowByteField_toNat, encode_setslot_toNat]; omega

@[simp] theorem lowByteField_encode_setcoef (v : Byte) : lowByteField (encode (.setcoef v)) = v := by
  apply BitVec.eq_of_toNat_eq
  rw [lowByteField_toNat, encode_setcoef_toNat]; omega

@[simp] theorem lowByteField_encode_read (sel : Byte) : lowByteField (encode (.read sel)) = sel := by
  apply BitVec.eq_of_toNat_eq
  rw [lowByteField_toNat, encode_read_toNat]; omega

@[simp] theorem slotField_encode_wslot : slotField (encode (.wslot slot key wl wr)) = slot := by
  apply BitVec.eq_of_toNat_eq
  rw [slotField_toNat, encode_wslot_toNat]; omega

@[simp] theorem keyField_encode_wslot : keyField (encode (.wslot slot key wl wr)) = key := by
  apply BitVec.eq_of_toNat_eq
  rw [keyField_toNat, encode_wslot_toNat]; omega

@[simp] theorem wlField_encode_wslot : wlField (encode (.wslot slot key wl wr)) = wl := by
  apply BitVec.eq_of_toNat_eq
  rw [wlField_toNat, encode_wslot_toNat]; omega

@[simp] theorem lowByteField_encode_wslot : lowByteField (encode (.wslot slot key wl wr)) = wr := by
  apply BitVec.eq_of_toNat_eq
  rw [lowByteField_toNat, encode_wslot_toNat]; omega

@[simp] theorem slotField_encode_wfact : slotField (encode (.wfact slot fac)) = slot := by
  apply BitVec.eq_of_toNat_eq
  rw [slotField_toNat, encode_wfact_toNat]; omega

@[simp] theorem lowByteField_encode_wfact : lowByteField (encode (.wfact slot fac)) = fac := by
  apply BitVec.eq_of_toNat_eq
  rw [lowByteField_toNat, encode_wfact_toNat]; omega

end

/-- The row of a command's opcode builds that command from its own word (R81, R90). -/
theorem row_build_encode {i : Instr} {row : CommandRow}
    (hrow : commandRows[(opcodeOf (encode i)).toNat]? = some row) : row.build (encode i) = i := by
  rw [opcodeOf_toNat] at hrow
  cases i with
  | nop => cases hrow; rfl
  | tick => cases hrow; rfl
  | setstep v =>
    rw [encode_setstep_toNat, show (0x20000000 + v.toNat) / 2 ^ 28 = 2 by omega] at hrow
    cases hrow
    simp
  | setslot v =>
    rw [encode_setslot_toNat, show (0x30000000 + v.toNat) / 2 ^ 28 = 3 by omega] at hrow
    cases hrow
    simp
  | setcoef v =>
    rw [encode_setcoef_toNat, show (0x40000000 + v.toNat) / 2 ^ 28 = 4 by omega] at hrow
    cases hrow
    simp
  | wslot slot key wl wr =>
    rw [encode_wslot_toNat, show (0x50000000 + slot.toNat * 2 ^ 22 + key.toNat * 2 ^ 16 + wl.toNat * 2 ^ 8 +
      wr.toNat) / 2 ^ 28 = 5 by omega] at hrow
    cases hrow
    simp
  | wfact slot fac =>
    rw [encode_wfact_toNat, show (0x60000000 + slot.toNat * 2 ^ 22 + fac.toNat) / 2 ^ 28 = 6 by omega] at hrow
    cases hrow
    simp
  | read sel =>
    rw [encode_read_toNat, show (0x70000000 + sel.toNat) / 2 ^ 28 = 7 by omega] at hrow
    cases hrow
    simp
  | clrerr => cases hrow; rfl
  | srst => cases hrow; rfl

/-- Every command decodes from its own word (R83). -/
@[simp] theorem decodeWord_encode (i : Instr) : decodeWord (encode i) = .ok i := by
  obtain ⟨row, hrow, hmatch⟩ := encode_matches_row i
  rw [decodeWord_of_row hrow hmatch, row_build_encode hrow]

end Sys2Proof

/-! The run over the host's stream (R68): a command word does the same whatever is still in the stream. -/

namespace Sys2Proof.Machine

/-- The word of a command performs the command (R84). -/
theorem execWord_encode (i : Instr) (s : State) : execWord (encode i) s = exec i s := by
  simp only [execWord, decodeWord_encode]

/-- Every command answers a next state (R213, R216). -/
theorem exec_answers (i : Instr) (s : State) : ∃ t, exec i s = .next t := by
  cases i <;> exact ⟨_, rfl⟩

/-- Every command word answers a next state, a word that is no command too (R216). -/
theorem execWord_answers (w : Word) (s : State) : ∃ t, execWord w s = .next t := by
  simp only [execWord]
  cases decodeWord w with
  | ok i => exact exec_answers i s
  | error e => exact ⟨_, rfl⟩

section
variable (s : State) (p : List HostInput)

theorem State.writeWaves_withPort (slot : BitVec 6) (key : BitVec 1) (wl wr : Byte) :
    { s with port := p }.writeWaves slot key wl wr = { s.writeWaves slot key wl wr with port := p } := by
  simp only [State.writeWaves]
  cases slotIndex slot with
  | none => rfl
  | some i => dsimp only; split <;> rfl

theorem State.writeFactor_withPort (slot : BitVec 6) (fac : Byte) :
    { s with port := p }.writeFactor slot fac = { s.writeFactor slot fac with port := p } := by
  simp only [State.writeFactor]
  cases slotIndex slot <;> rfl

theorem State.readSelected_withPort (x : Selected) : { s with port := p }.readSelected x = s.readSelected x := by
  cases x <;> rfl

theorem State.readInto_withPort (sel : Byte) :
    { s with port := p }.readInto sel = { s.readInto sel with port := p } := by
  simp only [State.readInto, State.readSelected_withPort]
  cases selectedBy sel <;> rfl

end

/-- A command does the same whatever is still in the host's stream, and leaves the stream alone (R42). -/
theorem exec_withPort {i : Instr} {s t : State} (h : exec i s = .next t) (p : List HostInput) :
    exec i { s with port := p } = .next { t with port := p } := by
  cases i with
  | wslot slot key wl wr => cases h; rw [exec_wslot, State.writeWaves_withPort]
  | wfact slot fac => cases h; rw [exec_wfact, State.writeFactor_withPort]
  | read sel => cases h; rw [exec_read, State.readInto_withPort]
  | _ => cases h; rfl

/-- A command word does the same whatever is still in the host's stream (R42). -/
theorem execWord_withPort {w : Word} {s t : State} (h : execWord w s = .next t) (p : List HostInput) :
    execWord w { s with port := p } = .next { t with port := p } := by
  simp only [execWord] at h ⊢
  cases hw : decodeWord w with
  | ok i => rw [hw] at h; exact exec_withPort h p
  | error e => rw [hw] at h; cases h; rfl

/-- The step from a stream of words performs its first word and leaves the others in the stream (R68). -/
theorem step_sending_cons {w : Word} {ws : List Word} {s t : State} (h : execWord w s = .next t) :
    step (s.sending (w :: ws)) = .next (t.sending ws) :=
  execWord_withPort h (ws.map HostInput.command)

/-- A run takes its first step and then the rest. -/
theorem run_succ_of_step {s t : State} (h : step s = .next t) (k : Nat) :
    Host.Core.run core (k + 1) s = Host.Core.run core k t := by
  simp only [Host.Core.run, show core.step s = .next t from h]

theorem execWords_cons_of_next {w : Word} {s t : State} (h : execWord w s = .next t) (ws : List Word) :
    execWords (w :: ws) s = execWords ws t := by
  simp only [execWords, h]

/-- The machine's run over a stream of words is the execution of the words in order (R68). -/
theorem run_sending (ws : List Word) (s : State) :
    Host.Core.run core ws.length (s.sending ws) = execWords ws { s with port := [] } := by
  induction ws generalizing s with
  | nil => rfl
  | cons w ws ih =>
    obtain ⟨t, ht⟩ := execWord_answers w s
    rw [List.length_cons, run_succ_of_step (step_sending_cons ht), execWords_cons_of_next (execWord_withPort ht [])]
    exact ih t

/-- Executing the words of commands is executing the commands (R68, R84). -/
theorem execWords_map_encode (is : List Instr) (s : State) : execWords (is.map encode) s = execAll is s := by
  induction is generalizing s with
  | nil => rfl
  | cons i is ih =>
    obtain ⟨t, ht⟩ := exec_answers i s
    rw [List.map_cons, execWords_cons_of_next ((execWord_encode i s).trans ht), ih t]
    simp only [execAll, ht]

/-- Settles O11: the run over words, and the words of commands. -/
theorem runOfAStreamIsItsCommandsInOrder : Obligations.RunOfAStreamIsItsCommandsInOrder :=
  ⟨run_sending, execWords_map_encode⟩

end Sys2Proof.Machine

/-! Reads and writes of the slot table and fetches from the ROM (R61, R67, R73, R104). -/

namespace Sys2Proof.Machine

/-- No selector names RDATA, so what READ gives does not depend on it (R188). -/
@[simp] theorem State.readSelected_setRdata (s : State) (v : Word) (x : Selected) :
    (s.setRdata v).readSelected x = s.readSelected x := by
  cases x <;> rfl

/-- A listed selector names a register or a slot entry (R188). -/
theorem selectedBy_of_listed {sel : Byte} (h : selectorListed sel = true) : ∃ x, selectedBy sel = some x := by
  rw [selectorListed_iff] at h
  refine Option.ne_none_iff_exists'.1 fun hnone => ?_
  rw [selectedBy_eq_none_iff] at hnone
  omega

/-- READ of what a selector names copies it to RDATA (R188). -/
theorem State.readInto_of_selected {sel : Byte} {x : Selected} (h : selectedBy sel = some x) (s : State) :
    s.readInto sel = s.setRdata (s.readSelected x) := by
  simp only [State.readInto, h]

/-- Settles O32: READ writes RDATA, which no READ reads. -/
theorem readsAreIdempotent : Obligations.ReadsAreIdempotent := by
  intro sel s hlisted
  obtain ⟨x, hx⟩ := selectedBy_of_listed hlisted
  refine ⟨s.setRdata (s.readSelected x), ?_, rfl, ?_⟩
  · rw [exec_read, State.readInto_of_selected hx]
  · rw [exec_read, State.readInto_of_selected hx, State.readSelected_setRdata]; rfl

/-- WSLOT of a slot in the table with waveforms in the ROM writes that entry (R100). -/
theorem State.writeWaves_of_inRange {s : State} {slot : BitVec 6} {i : Fin 61} (hi : slot.toNat = i.val) {wl wr : Byte}
    (hl : wl.toNat < s.waveCount) (hr : wr.toNat < s.waveCount) (key : BitVec 1) :
    s.writeWaves slot key wl wr = s.setWaves i key wl wr := by
  simp only [State.writeWaves, slotIndex_eq_some.2 hi]
  exact if_neg (by omega)

/-- WFACT of a slot in the table writes that entry (R102). -/
theorem State.writeFactor_of_inRange {slot : BitVec 6} {i : Fin 61} (hi : slot.toNat = i.val) (s : State) (fac : Byte) :
    s.writeFactor slot fac = s.setFactor i fac := by
  simp only [State.writeFactor, slotIndex_eq_some.2 hi]

/-- Settles O37: both commands write the entry that the lookup reads. -/
theorem writtenEntryIsSeenByTheNextLookup : Obligations.WrittenEntryIsSeenByTheNextLookup := by
  intro s t u slot key wl wr fac hslot hl hr ht hu
  rw [exec_wslot, State.writeWaves_of_inRange hslot hl hr, Host.Outcome.next.injEq] at ht
  rw [exec_wfact, State.writeFactor_of_inRange hslot, Host.Outcome.next.injEq] at hu
  subst ht hu
  simp [State.lookupSlot]

/-- The stored index of every logical position is that of one of a waveform's 64 samples (R131). -/
theorem storedIndex_lt {p : Nat} (h : p < 128) : storedIndex p < Config.waveLen := by
  simp only [storedIndex, Config.waveLen]
  split <;> omega

theorem logicalPosition_lt (ph : BitVec 16) : logicalPosition ph < 128 := (ph.extractLsb' 9 7).isLt

/-- Every sample of a waveform of the ROM is inside the ROM (R60, R105). -/
theorem sampleAddress_lt {w : Byte} {n k : Nat} (hw : w.toNat < n) (hk : k < Config.waveLen) :
    sampleAddress w k < Config.waveLen * n := by
  simp only [sampleAddress, Config.waveLen] at hk ⊢
  omega

/-- At every phase, the fetch from a written waveform reference is inside the ROM (R33, R61). -/
theorem Stored.namesWave.fetch_lt {n : Nat} {f : Stored 8} (h : f.namesWave n) (hwritten : f.written = true)
    (unspecified : Byte) (ph : BitVec 16) :
    sampleAddress (f.value unspecified) (storedIndex (logicalPosition ph)) < Config.waveLen * n := by
  rw [Stored.value_of_written hwritten]
  exact sampleAddress_lt (h hwritten) (storedIndex_lt (logicalPosition_lt ph))

/-- Settles O42: the invariant holds of the left and of the right reference of the selected entry. -/
theorem fetchesOfWrittenReferencesAreInTheRom : Obligations.FetchesOfWrittenReferencesAreInTheRom :=
  fun s ph hs =>
    ⟨fun hw => (hs.left_in_rom s.slot).fetch_lt hw _ ph, fun hw => (hs.right_in_rom s.slot).fetch_lt hw _ ph⟩

end Sys2Proof.Machine

/-! The opcode map by fields (R81, R82, R90, R91): the bits of a word that matches a row, the command each row gives, and
the error of every other word. -/

namespace Sys2Proof

section
variable {w mask pattern : Word}

/-- A word that matches a row has the row's bits in every field that the row's mask covers. -/
theorem extractLsb'_of_match {lo n : Nat} (hmatch : w &&& mask = pattern)
    (hcover : mask.extractLsb' lo n = BitVec.allOnes n) : w.extractLsb' lo n = pattern.extractLsb' lo n := by
  rw [← hmatch, BitVec.extractLsb'_and, hcover, BitVec.and_allOnes]

/-- Such a field of the word as a number. -/
theorem field_toNat_of_match {lo n : Nat} (hmatch : w &&& mask = pattern)
    (hcover : mask.extractLsb' lo n = BitVec.allOnes n) : w.toNat / 2 ^ lo % 2 ^ n = pattern.toNat / 2 ^ lo % 2 ^ n := by
  have h := congrArg BitVec.toNat (extractLsb'_of_match hmatch hcover)
  rwa [BitVec.extractLsb'_toNat, BitVec.extractLsb'_toNat, Nat.shiftRight_eq_div_pow, Nat.shiftRight_eq_div_pow] at h

/-- A word that matches a row is the row's bits above an operand in the low bits (formats I16 and I8 of R82). -/
theorem upper_add_low_of_match {n : Nat} (hmatch : w &&& mask = pattern)
    (hcover : mask >>> n = BitVec.allOnes 32 >>> n) : 2 ^ n * (pattern.toNat / 2 ^ n) + w.toNat % 2 ^ n = w.toNat := by
  have hupper : pattern >>> n = w >>> n := by
    rw [← hmatch, BitVec.ushiftRight_and_distrib, hcover, ← BitVec.ushiftRight_and_distrib, BitVec.and_allOnes]
  have hdiv := congrArg BitVec.toNat hupper
  rw [BitVec.toNat_ushiftRight, BitVec.toNat_ushiftRight, Nat.shiftRight_eq_div_pow, Nat.shiftRight_eq_div_pow] at hdiv
  rw [hdiv, Nat.div_add_mod]

/-- A mask of every bit leaves one word: format Z has no operands (R82). -/
theorem eq_of_match_allOnes (hmatch : w &&& 0xFFFFFFFF#32 = pattern) : w = pattern :=
  BitVec.and_allOnes.symm.trans hmatch

end

/-- Each row stands at its own opcode, which its mask covers (R90). -/
theorem commandRows_opcode : ∀ n : Fin 10,
    opcodeOf commandRows[n].mask = BitVec.allOnes 4 ∧ (opcodeOf commandRows[n].pattern).toNat = n.val := by
  decide

section
variable {w : Word}

/-- A word that matches a row decodes to the row's command (R90). -/
theorem decodeWord_of_match (n : Fin 10) (hmatch : w &&& commandRows[n].mask = commandRows[n].pattern) :
    decodeWord w = .ok (commandRows[n].build w) := by
  obtain ⟨hmask, hpattern⟩ := commandRows_opcode n
  have hop : opcodeOf w = opcodeOf commandRows[n].pattern := extractLsb'_of_match hmatch hmask
  refine decodeWord_of_row ?_ hmatch
  rw [hop, hpattern]
  exact List.getElem?_eq_getElem n.isLt

/-- The command that a row builds from a matching word has that word: the row's mask covers every bit that is no operand of
the command (R80, R90). -/
theorem encode_build_of_match {row : CommandRow} (hrow : row ∈ commandRows) (hmatch : w &&& row.mask = row.pattern) :
    encode (row.build w) = w := by
  simp only [commandRows, List.mem_cons, List.not_mem_nil, or_false] at hrow
  rcases hrow with rfl | rfl | rfl | rfl | rfl | rfl | rfl | rfl | rfl | rfl
  · exact (eq_of_match_allOnes hmatch).symm
  · exact (eq_of_match_allOnes hmatch).symm
  · apply BitVec.eq_of_toNat_eq
    rw [encode_setstep_toNat, imm16Field_toNat]
    exact upper_add_low_of_match (n := 16) hmatch rfl
  · apply BitVec.eq_of_toNat_eq
    rw [encode_setslot_toNat, lowByteField_toNat]
    exact upper_add_low_of_match (n := 8) hmatch rfl
  · apply BitVec.eq_of_toNat_eq
    rw [encode_setcoef_toNat, lowByteField_toNat]
    exact upper_add_low_of_match (n := 8) hmatch rfl
  · have hop : w.toNat / 2 ^ 28 % 2 ^ 4 = 5 := field_toNat_of_match hmatch rfl
    have hzero : w.toNat / 2 ^ 17 % 2 ^ 5 = 0 := field_toNat_of_match hmatch rfl
    apply BitVec.eq_of_toNat_eq
    rw [encode_wslot_toNat, slotField_toNat, keyField_toNat, wlField_toNat, lowByteField_toNat]
    omega
  · have hop : w.toNat / 2 ^ 28 % 2 ^ 4 = 6 := field_toNat_of_match hmatch rfl
    have hzero : w.toNat / 2 ^ 8 % 2 ^ 14 = 0 := field_toNat_of_match hmatch rfl
    apply BitVec.eq_of_toNat_eq
    rw [encode_wfact_toNat, slotField_toNat, lowByteField_toNat]
    omega
  · apply BitVec.eq_of_toNat_eq
    rw [encode_read_toNat, lowByteField_toNat]
    exact upper_add_low_of_match (n := 8) hmatch rfl
  · exact (eq_of_match_allOnes hmatch).symm
  · exact (eq_of_match_allOnes hmatch).symm

end

/-- The command that a word decodes to has that word (R80, R90). -/
theorem encode_of_decodeWord {w : Word} {i : Instr} (h : decodeWord w = .ok i) : encode i = w := by
  obtain ⟨row, hrow, hmatch, rfl⟩ := Machine.decodeWord_ok h
  exact encode_build_of_match (List.mem_of_getElem? hrow) hmatch

/-- Settles O1, at the front of a byte stream by the byte decoder's reading of a whole word. -/
theorem decodeOfEncodeIsTheCommand : Obligations.DecodeOfEncodeIsTheCommand := by
  intro i rest
  have hword := decodeWord_encode i
  exact ⟨hword, by rw [encodeBytes, decodeBytes_wordBytes_append, hword]; rfl⟩

/-- Settles O2. -/
theorem encodeOfDecodeIsTheWord : Obligations.EncodeOfDecodeIsTheWord := fun _ _ => encode_of_decodeWord

end Sys2Proof

namespace Sys2Proof.Machine

theorem execWord_of_decodeWord_ok {w : Word} {i : Instr} (h : decodeWord w = .ok i) (s : State) :
    execWord w s = exec i s := by
  simp only [execWord, h]

theorem execWord_of_decodeWord_error {w : Word} {e : Reject} (h : decodeWord w = .error e) (s : State) :
    execWord w s = .next (s.raiseError .illegalCmd) := by
  simp only [execWord, h]

/-- A word that is no command raises ILLEGAL_CMD and does nothing else (R85, R210). -/
theorem execWord_of_no_command {w : Word} (h : ∀ i, decodeWord w ≠ .ok i) (s : State) :
    execWord w s = .next (Claims.withError s 1) := by
  cases hw : decodeWord w with
  | ok i => exact absurd hw (h i)
  | error e => exact execWord_of_decodeWord_error hw s

/-- Settles O3: each row by its place in the map, and a word that decodes matches one of them. -/
theorem opcodeMapDecidesTheCommand : Obligations.OpcodeMapDecidesTheCommand := by
  intro w
  refine ⟨decodeWord_of_match 0, decodeWord_of_match 1, decodeWord_of_match 2, decodeWord_of_match 3,
    decodeWord_of_match 4, decodeWord_of_match 5, decodeWord_of_match 6, decodeWord_of_match 7, decodeWord_of_match 8,
    decodeWord_of_match 9, fun hnone => execWord_of_no_command fun i hi => ?_⟩
  obtain ⟨row, hrow, hmatch, -⟩ := decodeWord_ok hi
  have hmem : (row.pattern, row.mask) ∈ commandRows.map fun r => (r.pattern, r.mask) :=
    List.mem_map_of_mem (List.mem_of_getElem? hrow)
  exact hnone _ hmem hmatch

/-- Settles O5: the mask of the word's row covers the should-be-zero field, so a word that decodes has 0 there. -/
theorem shouldBeZeroBitRaisesIllegalCmd : Obligations.ShouldBeZeroBitRaisesIllegalCmd := by
  intro w s h
  refine execWord_of_no_command (fun i hi => ?_) s
  obtain ⟨row, hrow, hmatch, -⟩ := decodeWord_ok hi
  simp only [List.mem_cons, List.not_mem_nil, or_false] at h
  obtain ⟨hop | hop | hop | hop, hne⟩ | ⟨hop, hne⟩ | ⟨hop | hop | hop, hne⟩ | ⟨hop, hne⟩ | ⟨hop, hne⟩ := h <;>
    · rw [opcodeOf, hop] at hrow
      cases hrow
      exact hne (extractLsb'_of_match hmatch rfl)

/-- Raising an error changes a state that has none (R214). -/
theorem State.raiseError_ne_self {s : State} (h : s.err = 0) (c : ErrorCause) : s.raiseError c ≠ s := by
  intro he
  have herr : stickyError s.err c = s.err := congrArg State.err he
  rw [h] at herr
  cases c <;> cases herr

/-- A command other than NOP changes some state: one in which what the command writes holds another value (R20). -/
theorem exec_changes_some_state {i : Instr} (hi : i ≠ .nop) : ∃ s t, exec i s = .next t ∧ t ≠ s := by
  cases i with
  | nop => exact absurd rfl hi
  | tick => exact ⟨.reset, _, rfl, fun h => absurd (congrArg State.count h) (by decide)⟩
  | setstep v =>
    exact ⟨{ State.reset with phaseStep := v + 1 }, _, rfl, fun h => by simpa using congrArg State.phaseStep h⟩
  | setslot v =>
    exact ⟨{ State.reset with slot := clampedSlot v + 1 }, _, rfl, fun h => by simpa using congrArg State.slot h⟩
  | setcoef v =>
    exact ⟨{ State.reset with coef := v + 1 }, _, rfl, fun h => by simpa using congrArg State.coef h⟩
  | wslot slot key wl wr =>
    refine ⟨.reset, _, rfl, ?_⟩
    obtain ⟨-, he⟩ | ⟨-, -, he⟩ | ⟨k, -, -, -, he⟩ := State.reset.writeWaves_cases slot key wl wr <;> rw [he]
    · exact State.raiseError_ne_self rfl _
    · exact State.raiseError_ne_self rfl _
    · intro h
      have hwritten : State.reset.table[k].left.written = true := by
        rw [← h, State.setWaves_entry, if_pos rfl]; rfl
      rw [State.reset_entry] at hwritten
      cases hwritten
  | wfact slot fac =>
    refine ⟨.reset, _, rfl, ?_⟩
    obtain ⟨-, he⟩ | ⟨k, -, he⟩ := State.reset.writeFactor_cases slot fac <;> rw [he]
    · exact State.raiseError_ne_self rfl _
    · intro h
      have hwritten : State.reset.table[k].factor.written = true := by
        rw [← h, State.setFactor_entry, if_pos rfl]; rfl
      rw [State.reset_entry] at hwritten
      cases hwritten
  | read sel =>
    cases hsel : selectedBy sel with
    | none => exact ⟨.reset, _, by rw [exec_read, State.readInto, hsel], State.raiseError_ne_self rfl _⟩
    | some x =>
      refine ⟨State.reset.setRdata (State.reset.readSelected x + 1), _,
        by rw [exec_read, State.readInto_of_selected hsel], fun h => ?_⟩
      simpa using congrArg State.rdata h
  | clrerr => exact ⟨{ State.reset with err := 1 }, _, rfl, fun h => absurd (congrArg State.err h) (by decide)⟩
  | srst => exact ⟨{ State.reset with count := 1 }, _, rfl, fun h => absurd (congrArg State.count h) (by decide)⟩

/-- A reserved opcode has no row in the map, so its words are no commands (R92). -/
theorem decodeWord_ne_ok_of_reserved {w : Word} (h : 10 ≤ (opcodeOf w).toNat) (i : Instr) : decodeWord w ≠ .ok i := by
  intro hi
  obtain ⟨row, hrow, -, -⟩ := decodeWord_ok hi
  rw [List.getElem?_eq_none h] at hrow
  cases hrow

/-- A word that does nothing in every state is the word of NOP: an error and every other command change some state. -/
theorem eq_zero_of_idle {w : Word} (h : ∀ s, execWord w s = .next s) : w = 0 := by
  cases hw : decodeWord w with
  | error e =>
    have hidle := (execWord_of_decodeWord_error hw .reset).symm.trans (h .reset)
    exact absurd (Host.Outcome.next.inj hidle) (State.raiseError_ne_self rfl _)
  | ok i =>
    have hnop : i = .nop := by
      by_contra hi
      obtain ⟨s, t, ht, hne⟩ := exec_changes_some_state hi
      have hidle := (execWord_of_decodeWord_ok hw s).symm.trans (h s)
      exact hne (Host.Outcome.next.inj (ht.symm.trans hidle))
    subst hnop
    exact (encode_of_decodeWord hw).symm

/-- Settles O6. -/
theorem reservedOpcodesAreIllegalAndOnlyNopIsIdle : Obligations.ReservedOpcodesAreIllegalAndOnlyNopIsIdle := by
  refine ⟨fun w s h => execWord_of_no_command (decodeWord_ne_ok_of_reserved h) s, fun w => ⟨eq_zero_of_idle, ?_⟩⟩
  rintro rfl s
  exact execWord_encode .nop s

/-- With a command word first in the host's stream, a step takes that word and executes it (R68, R84). -/
theorem step_of_command {s : State} {w : Word} {rest : List HostInput} (h : s.port = .command w :: rest) :
    step s = execWord w { s with port := rest } := by
  simp only [step, h, performInput, State.takeInput, List.tail_cons]

/-- Settles O9. -/
theorem stepRunsTheDecodedCommand : Obligations.StepRunsTheDecodedCommand := by
  intro s w rest
  refine ⟨fun hport => ?_, fun hport => by simp only [step, hport]⟩
  rw [step_of_command hport]
  exact ⟨fun i hi => execWord_of_decodeWord_ok hi _, fun e he => execWord_of_decodeWord_error he _⟩

end Sys2Proof.Machine

namespace Sys2Proof.HostSide

/-- Settles O4: each line by evaluation of the assembler, and each word as the word of its command. -/
theorem encodingExamples : Obligations.EncodingExamples :=
  ⟨by decide, decodeWord_encode (.wslot 0 1 5 5), by decide, decodeWord_encode (.wslot 30 0 5 10),
    by decide, decodeWord_encode (.wslot 60 1 10 10), by decide, decodeWord_encode (.wfact 30 127),
    by decide, decodeWord_encode (.setstep 0x4000), by decide, decodeWord_encode (.setslot 30),
    by decide, decodeWord_encode (.setcoef 255), by decide, decodeWord_encode (.read 0x5E),
    by decide, decodeWord_encode (.read 0x06)⟩

/-- Settles O7, each line by evaluation of the assembler. -/
theorem assemblerExpandsAndRefuses : Obligations.AssemblerExpandsAndRefuses := by
  refine ⟨?_, ?_, ?_, ?_, ?_, ?_, ?_, ?_, ?_, ?_⟩ <;> decide

end Sys2Proof.HostSide

/-! The two commands that write the slot table (R100, R102): their words, their errors, and the one entry they write. -/

namespace Sys2Proof

/-- The words of a row's opcode: the row's command where they match the row, ILLEGAL_CMD elsewhere (R90, R91). -/
theorem encodedAs_commandRow (n : Fin 10) :
    Claims.EncodedAs commandRows[n].pattern commandRows[n].mask commandRows[n].build := by
  intro w hop
  refine ⟨decodeWord_of_match n, fun hne s => Machine.execWord_of_no_command (fun i hi => hne ?_) s⟩
  obtain ⟨row, hrow, hmatch, -⟩ := Machine.decodeWord_ok hi
  have hn : (opcodeOf w).toNat = n.val := by
    rw [← (commandRows_opcode n).2, opcodeOf_toNat, opcodeOf_toNat, hop]
  rw [hn, List.getElem?_eq_getElem n.isLt, Option.some.injEq] at hrow
  rwa [← hrow] at hmatch

end Sys2Proof

namespace Sys2Proof.Machine

theorem slotIndex_eq_none {slot : BitVec 6} (h : 60 < slot.toNat) : slotIndex slot = none :=
  dif_neg (by omega)

section
variable (s : State) {slot : BitVec 6}

/-- WSLOT of a slot outside the table raises INVALID_FORMAT, whatever its waveforms are (R100, R215). -/
theorem State.writeWaves_of_slot_gt (h : 60 < slot.toNat) (key : BitVec 1) (wl wr : Byte) :
    s.writeWaves slot key wl wr = s.raiseError .invalidFormat := by
  simp only [State.writeWaves, slotIndex_eq_none h]

/-- WSLOT of a slot in the table with a waveform outside the ROM raises OUT_OF_RANGE (R100). -/
theorem State.writeWaves_of_wave_outOfRange (h : slot.toNat ≤ 60) {wl wr : Byte}
    (hw : s.waveCount ≤ wl.toNat ∨ s.waveCount ≤ wr.toNat) (key : BitVec 1) :
    s.writeWaves slot key wl wr = s.raiseError .outOfRange := by
  have hi : slotIndex slot = some ⟨slot.toNat, by omega⟩ := slotIndex_eq_some.2 rfl
  simp only [State.writeWaves, hi, if_pos hw]

/-- WFACT of a slot outside the table raises INVALID_FORMAT (R102). -/
theorem State.writeFactor_of_slot_gt (h : 60 < slot.toNat) (fac : Byte) :
    s.writeFactor slot fac = s.raiseError .invalidFormat := by
  simp only [State.writeFactor, slotIndex_eq_none h]

end

/-- Settles O28: the row of WSLOT in the opcode map, and the branches of `writeWaves`. -/
theorem wslotWritesOneEntry : Obligations.WslotWritesOneEntry := by
  refine ⟨encodedAs_commandRow 5, fun slot key wl wr s => ⟨fun h => ?_, fun h hw => ?_, fun i hi hl hr => ?_⟩⟩
  · rw [exec_wslot, State.writeWaves_of_slot_gt s h]; rfl
  · rw [exec_wslot, State.writeWaves_of_wave_outOfRange s h hw]; rfl
  · refine ⟨s.setWaves i key wl wr, ?_, ?_, fun j hj => ?_, rfl⟩
    · rw [exec_wslot, State.writeWaves_of_inRange hi.symm hl hr]
    · rw [State.setWaves_entry, if_pos rfl]; rfl
    · rw [State.setWaves_entry, if_neg hj.symm]

/-- Settles O29: the row of WFACT in the opcode map, and the branches of `writeFactor`. -/
theorem wfactWritesOneFactor : Obligations.WfactWritesOneFactor := by
  refine ⟨encodedAs_commandRow 6, fun slot fac s => ⟨fun h => ?_, fun i hi => ?_⟩⟩
  · rw [exec_wfact, State.writeFactor_of_slot_gt s h]; rfl
  · refine ⟨s.setFactor i fac, ?_, ?_, fun j hj => ?_, rfl⟩
    · rw [exec_wfact, State.writeFactor_of_inRange hi.symm]
    · rw [State.setFactor_entry, if_pos rfl]; rfl
    · rw [State.setFactor_entry, if_neg hj.symm]

/-- A command whose fields are in range raises no error: only CLRERR writes ERR then (R93, R214). -/
theorem exec_err_of_wellFormed {i : Instr} {s t : State} (hi : i.wellFormed s.waveCount = true)
    (h : exec i s = .next t) : t.err = if i = .clrerr then 0 else s.err := by
  cases i with
  | clrerr => cases h; rfl
  | wslot slot key wl wr =>
    obtain ⟨⟨hslot, hl⟩, hr⟩ := wellFormed_wslot_iff.1 hi
    rw [exec_wslot, State.writeWaves_of_inRange (i := ⟨slot.toNat, hslot⟩) rfl hl hr] at h
    cases h; rfl
  | wfact slot fac =>
    rw [exec_wfact, State.writeFactor_of_inRange (i := ⟨slot.toNat, slotInTable_iff.1 hi⟩) rfl] at h
    cases h; rfl
  | read sel =>
    obtain ⟨x, hx⟩ := selectedBy_of_listed hi
    rw [exec_read, State.readInto_of_selected hx] at h
    cases h; rfl
  | _ => cases h; rfl

/-- Settles O52, by induction on the list of commands; no command changes the `WAVE_COUNT` its successors are checked
against. -/
theorem wellFormedCommandsRaiseNoError : Obligations.WellFormedCommandsRaiseNoError := by
  intro is
  induction is with
  | nil => exact fun s _ => ⟨s, rfl, by simp⟩
  | cons i is ih =>
    intro s h
    obtain ⟨hi, his⟩ := List.forall_mem_cons.1 h
    obtain ⟨u, hu⟩ := exec_answers i s
    obtain ⟨-, hcount, -⟩ := exec_keeps_parameters hu
    obtain ⟨t, ht, herr⟩ := ih u (by rwa [hcount])
    refine ⟨t, execAll_cons_eq_next.2 ⟨u, hu, ht⟩, ?_⟩
    rw [herr, exec_err_of_wellFormed hi hu]
    by_cases hc : i = .clrerr
    · simp [hc]
    · simp [hc, Ne.symm hc]

end Sys2Proof.Machine

/-! The host reference decoder (R110 to R118): the records that decode. -/

namespace Sys2Proof.HostSide

@[simp] theorem pairBytes_append (pairs more : List (Byte × Byte)) :
    pairBytes (pairs ++ more) = pairBytes pairs ++ pairBytes more :=
  List.flatMap_append

section
variable {waveCount : Nat} {w p : Byte} (kw : KeyWaves) (pos : Nat) (rest : List Byte)

/-- The position is checked before the waveform (R112). -/
theorem readPairs_of_position_gt (h : 60 < p.toNat) :
    readPairs waveCount kw pos (w :: p :: rest) = .error .invalidFormat := by
  rw [readPairs, dif_neg (by omega)]

theorem readPairs_of_wave_outOfRange (hp : p.toNat ≤ 60) (hw : waveCount ≤ w.toNat) :
    readPairs waveCount kw pos (w :: p :: rest) = .error .outOfRange := by
  rw [readPairs, dif_pos (by omega), if_pos hw]

/-- The pair at slot 60 ends the record, whatever bytes come after it (R112, R116). -/
theorem readPairs_of_last (hw : w.toNat < waveCount) :
    readPairs waveCount kw pos (w :: 60 :: rest) = .ok (keysAfter kw [(w, 60)], pos + 2) := by
  rw [readPairs, dif_pos (by decide), if_neg (by omega), if_pos (by decide)]
  rfl

end

/-- The bytes of a record: the tag byte, its pairs, and the pair at slot 60 that ends it (R111). -/
def recordBytes (tag : Byte) (pairs : List (Byte × Byte)) (last : Byte) : List Byte :=
  tag :: pairBytes (pairs ++ [(last, 60)])

/-- The key waves of such a record (R112). -/
def recordKeys (pairs : List (Byte × Byte)) (last : Byte) : KeyWaves := keysAfter noKeyWaves (pairs ++ [(last, 60)])

theorem keysAfter_concat (kw : KeyWaves) (pairs : List (Byte × Byte)) (q : Byte × Byte) :
    keysAfter kw (pairs ++ [q]) = keysAfter (keysAfter kw pairs) [q] := by
  induction pairs generalizing kw with
  | nil => rfl
  | cons p pairs ih => exact ih _

theorem recordBytes_length (tag : Byte) (pairs : List (Byte × Byte)) (last : Byte) :
    (recordBytes tag pairs last).length = 1 + 2 * (pairs.length + 1) := by
  simp only [recordBytes, List.length_cons, pairBytes_length, List.length_append, List.length_nil]; omega

theorem recordBytes_append (tag : Byte) (pairs : List (Byte × Byte)) (last : Byte) (rest : List Byte) :
    recordBytes tag pairs last ++ rest = tag :: pairBytes pairs ++ last :: 60 :: rest := by
  simp [recordBytes]

section
variable {waveCount : Nat} {tag last : Byte} {pairs : List (Byte × Byte)}

/-- A failure to read the pairs is a failure of the record (R112). -/
theorem decodeRecord_of_readPairs_error {bytes : List Byte} {e : DecodeFailure}
    (h : readPairs waveCount noKeyWaves 1 bytes = .error e) : decodeRecord waveCount (tag :: bytes) = .error e := by
  simp only [decodeRecord, h]

/-- After good pairs and a pair at slot 60, the record decodes if slot 0 is a key wave and fails if it is not (R112,
R113). -/
theorem decodeRecord_recordBytes (hgood : Claims.GoodPairs waveCount pairs) (hlast : last.toNat < waveCount)
    (rest : List Byte) :
    decodeRecord waveCount (recordBytes tag pairs last ++ rest) =
      if (keyWaveAt (recordKeys pairs last) 0).isSome then
        .ok (fillTable (recordKeys pairs last), (recordBytes tag pairs last).length)
      else .error .invalidFormat := by
  have hread : readPairs waveCount noKeyWaves 1 (pairBytes pairs ++ last :: 60 :: rest) =
      .ok (recordKeys pairs last, (recordBytes tag pairs last).length) := by
    rw [readPairs_append waveCount _ _ _ _ hgood, readPairs_of_last _ _ _ hlast, recordKeys, keysAfter_concat,
      recordBytes_length, Nat.mul_succ, Nat.add_assoc]
  simp only [recordBytes_append, List.cons_append, decodeRecord, hread]

/-- Only such a record decodes (R112, R113). -/
theorem decodeRecord_ok {buf : List Byte} {table : DecodedTable} {used : Nat}
    (h : decodeRecord waveCount buf = .ok (table, used)) :
    ∃ tag pairs last rest, buf = recordBytes tag pairs last ++ rest ∧ Claims.GoodPairs waveCount pairs ∧
      last.toNat < waveCount ∧ (keyWaveAt (recordKeys pairs last) 0).isSome ∧
      table = fillTable (recordKeys pairs last) ∧ used = (recordBytes tag pairs last).length := by
  cases buf with
  | nil => cases h
  | cons tag bytes =>
    cases hread : readPairs waveCount noKeyWaves 1 bytes with
    | error e => rw [decodeRecord_of_readPairs_error hread] at h; cases h
    | ok r =>
      obtain ⟨pairs, last, rest, rfl, hgood, hlast, -, -⟩ := readPairs_ok hread
      have hbytes := recordBytes_append tag pairs last rest
      rw [List.cons_append] at hbytes
      rw [← hbytes, decodeRecord_recordBytes hgood hlast] at h
      split at h
      · rename_i h0
        obtain ⟨rfl, rfl⟩ := Prod.mk.inj (Except.ok.inj h)
        exact ⟨tag, pairs, last, rest, hbytes.symm, hgood, hlast, h0, rfl, rfl⟩
      · cases h

end

end Sys2Proof.HostSide

/-! The table of a record's key waves (R114): an entry at a key slot, and an entry between two key slots. -/

namespace Sys2Proof.HostSide

theorem keyWaveAt_fin (kw : KeyWaves) (i : Fin 61) : keyWaveAt kw i.val = kw[i] := dif_pos i.isLt

theorem keyWaveAt_set (kw : KeyWaves) {p i : Nat} (hp : p < 61) (hi : i < 61) (w : Byte) :
    keyWaveAt (kw.set p (some w)) i = if p = i then some w else keyWaveAt kw i := by
  simp only [keyWaveAt, dif_pos hi, Vector.getElem_set]

/-- A slot is a key wave after the pairs of a list if one of them is at that slot or it was a key wave before (R112). -/
theorem keyWaveAt_keysAfter_isSome (kw : KeyWaves) (pairs : List (Byte × Byte)) {i : Nat} (hi : i < 61) :
    (keyWaveAt (keysAfter kw pairs) i).isSome ↔ (keyWaveAt kw i).isSome ∨ ∃ q ∈ pairs, q.2.toNat = i := by
  induction pairs generalizing kw with
  | nil => simp [keysAfter]
  | cons q pairs ih =>
    have hset : (keyWaveAt (if h : q.2.toNat < 61 then kw.set q.2.toNat (some q.1) else kw) i).isSome ↔
        q.2.toNat = i ∨ (keyWaveAt kw i).isSome := by
      by_cases h : q.2.toNat < 61
      · rw [dif_pos h, keyWaveAt_set kw h hi]
        split <;> simp [*]
      · rw [dif_neg h, or_iff_right (by omega)]
    rw [keysAfter, ih, hset, List.exists_mem_cons_iff, or_assoc, or_left_comm]

theorem keyWaveAt_noKeyWaves (i : Nat) : keyWaveAt noKeyWaves i = none := by
  simp [keyWaveAt, noKeyWaves]

section
variable {waveCount : Nat} {pairs : List (Byte × Byte)} {last : Byte}

/-- The key waves of a record are those of the last pair at each position (R112). -/
theorem keyWaveAt_recordKeys (i : Fin 61) (w : Byte) :
    keyWaveAt (recordKeys pairs last) i.val = some w ↔ Claims.LastPairAt (pairs ++ [(last, 60)]) i w := by
  have hnone : noKeyWaves[i] ≠ some w := by rw [← keyWaveAt_fin, keyWaveAt_noKeyWaves]; exact nofun
  rw [keyWaveAt_fin, recordKeys, keysAfter_eq_some, or_iff_left fun h => hnone h.1, Claims.LastPairAt]

/-- Slot 60 is a key wave of every record. -/
theorem keyWaveAt_recordKeys_sixty : keyWaveAt (recordKeys pairs last) 60 = some last :=
  (keyWaveAt_recordKeys (60 : Fin 61) last).2 ⟨pairs, [], rfl, nofun⟩

/-- Slot 0 is a key wave of a record exactly if one of the pairs before the last is at slot 0 (R113). -/
theorem keyWaveAt_recordKeys_zero_isSome :
    (keyWaveAt (recordKeys pairs last) 0).isSome ↔ ∃ q ∈ pairs, q.2 = 0 := by
  rw [recordKeys, keyWaveAt_keysAfter_isSome _ _ (by omega), keyWaveAt_noKeyWaves]
  simp [or_and_right, exists_or, ← BitVec.toNat_inj]

/-- Every key wave of a record of good pairs names a waveform of the ROM (R112). -/
theorem recordKeys_lt (hgood : Claims.GoodPairs waveCount pairs) (hlast : last.toNat < waveCount) {i : Nat} {w : Byte}
    (hi : i < 61) (h : keyWaveAt (recordKeys pairs last) i = some w) : w.toNat < waveCount := by
  obtain ⟨before, after, he, -⟩ := (keyWaveAt_recordKeys ⟨i, hi⟩ w).1 h
  have hmem : (w, BitVec.ofNat 8 i) ∈ pairs ++ [(last, 60)] := he ▸ List.mem_append_right _ List.mem_cons_self
  rcases List.mem_append.1 hmem with hmem | hmem
  · exact (hgood _ hmem).1
  · rw [List.mem_singleton, Prod.mk.injEq] at hmem
    exact hmem.1 ▸ hlast

end

/-- The factor as a number: it fits a byte, since the slot lies between its keys (R114). -/
theorem slotFactor_toNat {dt dl : Nat} (h : dl < dt) : (slotFactor dt dl).toNat = 65535 / dt * dl / 256 := by
  have hle : 65535 / dt * dl ≤ 65535 :=
    calc 65535 / dt * dl ≤ 65535 / dt * dt := Nat.mul_le_mul_left _ h.le
      _ ≤ 65535 := Nat.div_mul_le_self _ _
  rw [slotFactor, BitVec.toNat_ofNat, Nat.shiftRight_eq_div_pow, Nat.mod_eq_of_lt (by omega)]

section
variable {kw : KeyWaves} {i : Nat}

@[simp] theorem fillTable_entry (j : Fin 61) : (fillTable kw)[j] = fillSlot kw j.val := by
  simp [fillTable]

/-- The entry of a key slot (R114). -/
theorem fillSlot_of_key {w : Byte} (h : keyWaveAt kw i = some w) : fillSlot kw i = ⟨1, w, w, 0⟩ := by
  simp only [fillSlot, h]

theorem fillSlot_key (kw : KeyWaves) (i : Nat) : (fillSlot kw i).key = if (keyWaveAt kw i).isSome then 1 else 0 := by
  simp only [fillSlot]
  cases keyWaveAt kw i <;> rfl

/-- The key mark and the left wave of an entry tell the key wave of its slot (R114, R115). -/
theorem fillSlot_key_left_iff (w : Byte) :
    (fillSlot kw i).key = 1 ∧ (fillSlot kw i).left = w ↔ keyWaveAt kw i = some w := by
  cases h : keyWaveAt kw i with
  | some v => simp [fillSlot_of_key h]
  | none => simp [fillSlot_key, h]

theorem fillSlot_key_eq_zero_iff : (fillSlot kw i).key = 0 ↔ keyWaveAt kw i = none := by
  rw [fillSlot_key]
  cases keyWaveAt kw i <;> simp

/-- A slot that is no key wave lies between two neighbouring key slots, and its entry blends their waves (R114). -/
theorem fillSlot_between (h0 : (keyWaveAt kw 0).isSome) (h60 : (keyWaveAt kw 60).isSome) (hi : i < 61)
    (h : keyWaveAt kw i = none) :
    ∃ l r wl wr, l < i ∧ i < r ∧ r < 61 ∧ keyWaveAt kw l = some wl ∧ keyWaveAt kw r = some wr ∧
      (∀ j, l < j → j < r → keyWaveAt kw j = none) ∧ fillSlot kw i = ⟨0, wl, wr, slotFactor (r - l) (i - l)⟩ := by
  obtain ⟨hle, hl, hleft⟩ := leftKey_spec h0 i
  obtain ⟨wl, hwl⟩ := Option.isSome_iff_exists.1 hl
  have hlt : leftKey kw i < i := lt_of_le_of_ne hle fun he => by rw [he, h] at hwl; cases hwl
  obtain ⟨r, hr, hlr, hr60, hrsome, hright⟩ :=
    firstKeyFrom_spec (j := leftKey kw i + 1) (n := 60 - leftKey kw i) (by omega) (by omega) h60
  obtain ⟨wr, hwr⟩ := Option.isSome_iff_exists.1 hrsome
  have hir : i < r := by
    by_contra hge
    rw [hleft r hlr (by omega)] at hwr
    cases hwr
  refine ⟨leftKey kw i, r, wl, wr, hlt, hir, by omega, hwl, hwr, hright, ?_⟩
  have hrkey : rightKey kw (leftKey kw i) = r := by rw [rightKey, hr, Option.getD_some]
  simp only [fillSlot, h, hrkey, hwl, hwr, Option.getD_some]

end

/-- Every waveform reference of a decoded table is in the ROM (R112, R119). -/
theorem decodeRecord_waves_lt {waveCount used : Nat} {buf : List Byte} {table : DecodedTable}
    (h : decodeRecord waveCount buf = .ok (table, used)) (i : Fin 61) :
    (table[i]).left.toNat < waveCount ∧ (table[i]).right.toNat < waveCount := by
  obtain ⟨tag, pairs, last, rest, -, hgood, hlast, h0, rfl, -⟩ := decodeRecord_ok h
  rw [fillTable_entry]
  cases hi : keyWaveAt (recordKeys pairs last) i.val with
  | some w =>
    rw [fillSlot_of_key hi]
    exact ⟨recordKeys_lt hgood hlast i.isLt hi, recordKeys_lt hgood hlast i.isLt hi⟩
  | none =>
    obtain ⟨l, r, wl, wr, hl, hir, hr, hwl, hwr, -, he⟩ :=
      fillSlot_between h0 (Option.isSome_of_eq_some keyWaveAt_recordKeys_sixty) i.isLt hi
    rw [he]
    exact ⟨recordKeys_lt hgood hlast (by omega) hwl, recordKeys_lt hgood hlast hr hwr⟩

/-- Settles O54: the entries of a record's key waves, at the key slots and between them. -/
theorem decodedTablesKeepTheHostsDuties : Obligations.DecodedTablesKeepTheHostsDuties := by
  intro waveCount buf table used h
  have hwaves := decodeRecord_waves_lt h
  obtain ⟨tag, pairs, last, rest, rfl, -, -, h0, rfl, rfl⟩ := decodeRecord_ok h
  have h60 := keyWaveAt_recordKeys_sixty (pairs := pairs) (last := last)
  have hsixty : (fillTable (recordKeys pairs last))[60] = ⟨1, last, last, 0⟩ :=
    (fillTable_entry 60).trans (fillSlot_of_key h60)
  have hzero : (fillTable (recordKeys pairs last))[0].key = 1 := by
    obtain ⟨w, hw⟩ := Option.isSome_iff_exists.1 h0
    exact congrArg DecodedSlot.key ((fillTable_entry 0).trans (fillSlot_of_key hw))
  refine ⟨by rw [hsixty], by rw [hsixty], hzero, hwaves,
    ⟨tag, pairs ++ [(last, 60)], List.take_left, fun i w => ?_⟩, fun i hi => ?_, fun i hi => ?_⟩
  · rw [fillTable_entry, fillSlot_key_left_iff, keyWaveAt_recordKeys]
  · rw [fillTable_entry] at hi ⊢
    rw [fillSlot_of_key ((fillSlot_key_left_iff _).1 ⟨hi, rfl⟩)]
    exact ⟨rfl, rfl⟩
  · rw [fillTable_entry, fillSlot_key_eq_zero_iff] at hi
    obtain ⟨l, r, wl, wr, hl, hir, hr, hwl, hwr, hbetween, he⟩ :=
      fillSlot_between h0 (Option.isSome_of_eq_some h60) i.isLt hi
    refine ⟨⟨l, by omega⟩, ⟨r, hr⟩, hl, hir, ?_⟩
    simp only [fillTable_entry, he, fillSlot_of_key hwl, fillSlot_of_key hwr, fillSlot_key_eq_zero_iff, true_and]
    exact ⟨fun j hlj hjr => hbetween j hlj hjr, slotFactor_toNat (by omega)⟩

/-- The byte after each pair's waveform in a record is the pair's position (R111). -/
theorem pairBytes_getElem?_position (tag : Byte) (pairs : List (Byte × Byte)) (rest : List Byte) {k : Nat}
    (hk : k < pairs.length) : (tag :: pairBytes pairs ++ rest)[2 * (k + 1)]? = some pairs[k].2 := by
  induction pairs generalizing tag k with
  | nil => exact absurd hk (Nat.not_lt_zero k)
  | cons q pairs ih =>
    cases k with
    | zero => rfl
    | succ k => exact ih q.2 (Nat.lt_of_succ_lt_succ hk)

/-- Settles O55: the bytes of the record that decodes, and the same record before other bytes. -/
theorem decodeConsumesWholePairs : Obligations.DecodeConsumesWholePairs := by
  intro waveCount buf table used h
  obtain ⟨tag, pairs, last, rest, rfl, hgood, hlast, h0, rfl, rfl⟩ := decodeRecord_ok h
  refine ⟨⟨pairs.length + 1, by omega, recordBytes_length .., by simp, ?_, fun k hk hlt => ?_⟩, fun more => ?_⟩
  · rw [recordBytes, pairBytes_getElem?_position _ _ _ (by simp)]
    simp
  · obtain ⟨k, rfl⟩ : ∃ n, k = n + 1 := ⟨k - 1, by omega⟩
    have hlen : k < pairs.length := by omega
    have hpos := (hgood _ (List.getElem_mem hlen)).2
    rw [recordBytes, pairBytes_getElem?_position _ _ _ (by simp; omega), List.getElem_append_left hlen]
    intro he
    rw [Option.some.inj he] at hpos
    exact absurd hpos (by decide)
  · rw [List.take_left, decodeRecord_recordBytes hgood hlast, if_pos h0]

end Sys2Proof.HostSide

/-! Chained decoding (R117): one record more, after the others. -/

namespace Sys2Proof.HostSide

/-- Decoding the record of a buffer that starts where a decode ended, the bytes consumed added up (R117). -/
def decodeNext (waveCount : Nat) (buf : List Byte) (r : DecodedTable × Nat) :
    Except DecodeFailure (DecodedTable × Nat) :=
  (decodeRecord waveCount (buf.drop r.2)).map fun q => (q.1, r.2 + q.2)

/-- The model's recursion of `decodeNth`: the first record and then the others from where it ended. -/
theorem decodeNth_succ_of_ok {waveCount : Nat} {buf : List Byte} {r : DecodedTable × Nat}
    (h : decodeRecord waveCount buf = .ok r) (n : Nat) :
    decodeNth waveCount buf (n + 1) = (decodeNth waveCount (buf.drop r.2) n).map fun q => (q.1, r.2 + q.2) := by
  simp only [decodeNth, h]
  cases decodeNth waveCount (buf.drop r.2) n <;> rfl

theorem decodeNth_of_error {waveCount : Nat} {buf : List Byte} {e : DecodeFailure}
    (h : decodeRecord waveCount buf = .error e) (n : Nat) : decodeNth waveCount buf n = .error e := by
  cases n with
  | zero => exact h
  | succ n => rw [decodeNth, h]

/-- Decoding one record more is decoding the next record after the others (R117). -/
theorem decodeNth_succ (waveCount : Nat) (buf : List Byte) (n : Nat) :
    decodeNth waveCount buf (n + 1) = decodeNth waveCount buf n >>= decodeNext waveCount buf := by
  induction n generalizing buf with
  | zero =>
    cases h : decodeRecord waveCount buf with
    | error e => rw [decodeNth_of_error h, decodeNth_of_error h]; rfl
    | ok r => rw [decodeNth_succ_of_ok h, decodeNth, decodeNth, h]; rfl
  | succ n ih =>
    cases h : decodeRecord waveCount buf with
    | error e => rw [decodeNth_of_error h, decodeNth_of_error h]; rfl
    | ok r =>
      rw [decodeNth_succ_of_ok h, decodeNth_succ_of_ok h, ih]
      cases decodeNth waveCount (buf.drop r.2) n with
      | error e => rfl
      | ok q =>
        simp only [decodeNext, bind, Except.bind, Except.map, List.drop_drop]
        cases decodeRecord waveCount (buf.drop (r.2 + q.2)) with
        | error e => rfl
        | ok p => simp only [Nat.add_assoc]

/-- Settles O56, by the equation of one record more. -/
theorem chainedDecodeAddsUp : Obligations.ChainedDecodeAddsUp := by
  intro waveCount buf n
  refine ⟨fun t used h => ⟨fun t' used' h' => ?_, fun e h' => ?_⟩, fun e h => ?_, rfl⟩
  · rw [decodeNth_succ, h]; simp only [bind, Except.bind, decodeNext, h', Except.map]
  · rw [decodeNth_succ, h]; simp only [bind, Except.bind, decodeNext, h', Except.map]
  · rw [decodeNth_succ, h]; rfl

end Sys2Proof.HostSide

/-! Malformed records (R112, R113) and the source's record scenario (R115). -/

namespace Sys2Proof.HostSide

/-- After good pairs, the record fails as reading on from there fails (R112). -/
theorem decodeRecord_append_of_readPairs_error {waveCount : Nat} {good : List (Byte × Byte)}
    (hgood : Claims.GoodPairs waveCount good) (tag : Byte) {rest : List Byte} {e : DecodeFailure}
    (h : ∀ kw pos, readPairs waveCount kw pos rest = .error e) :
    decodeRecord waveCount (tag :: pairBytes good ++ rest) = .error e :=
  decodeRecord_of_readPairs_error ((readPairs_append waveCount _ _ _ _ hgood).trans (h _ _))

/-- Settles O57: what reading does with the bytes after the good pairs, and whether slot 0 is one of the pairs'. -/
theorem malformedRecordsFail : Obligations.MalformedRecordsFail := by
  refine ⟨fun _ => rfl, fun waveCount tag good hgood => ⟨?_, fun b => ?_, fun w p rest => ⟨fun hp => ?_, fun hp hw => ?_,
    fun hw hzero => ?_, fun hw hzero => ⟨fillTable (recordKeys good w), ?_⟩⟩⟩⟩
  · rw [← List.append_nil (tag :: pairBytes good)]
    exact decodeRecord_append_of_readPairs_error hgood tag fun _ _ => rfl
  · exact decodeRecord_append_of_readPairs_error hgood tag fun _ _ => rfl
  · exact decodeRecord_append_of_readPairs_error hgood tag fun _ _ => readPairs_of_position_gt _ _ _ hp
  · exact decodeRecord_append_of_readPairs_error hgood tag fun _ _ => readPairs_of_wave_outOfRange _ _ _ hp hw
  · have hnone : ¬ (keyWaveAt (recordKeys good w) 0).isSome := by
      rw [keyWaveAt_recordKeys_zero_isSome]
      exact fun ⟨q, hq, h0⟩ => hzero q hq h0
    rw [← recordBytes_append, decodeRecord_recordBytes hgood hw, if_neg hnone]
  · rw [← recordBytes_append, decodeRecord_recordBytes hgood hw, if_pos (keyWaveAt_recordKeys_zero_isSome.2 hzero),
      recordBytes_length]

/-- Settles O58: the record of one pair at slot 0 and the last pair, with its entries by evaluation. -/
theorem recordScenario : Obligations.RecordScenario := by
  refine ⟨fillTable (recordKeys [(5, 0)] 10), rfl, ?_, ?_, ?_⟩
  · decide
  · decide
  · decide

end Sys2Proof.HostSide

/-! Loading a decoded table (R119): what the two commands of one slot do, and the load of slots in any order. -/

namespace Sys2Proof.Machine

open HostSide

/-- What loading one slot leaves: the decoded entry in that slot of the table (R95, R119). -/
def State.loadEntry (s : State) (i : Fin 61) (d : DecodedSlot) : State :=
  (s.setWaves i d.key d.left d.right).setFactor i d.factor

section
variable (s : State) (i : Fin 61) (d : DecodedSlot)

theorem State.loadEntry_holds : Claims.HoldsEntry (s.loadEntry i d).table[i] d := by
  rw [Claims.HoldsEntry, State.loadEntry, State.setFactor_entry, if_pos rfl, State.setWaves_entry, if_pos rfl]
  rfl

theorem State.loadEntry_other {j : Fin 61} (h : j ≠ i) : (s.loadEntry i d).table[j] = s.table[j] := by
  rw [State.loadEntry, State.setFactor_entry, if_neg h.symm, State.setWaves_entry, if_neg h.symm]

end

/-- The commands of one slot, with waveforms of the ROM, load that slot (R95, R119). -/
theorem execAll_ldslot_append {s : State} {d : DecodedSlot} (i : Fin 61) (hl : d.left.toNat < s.waveCount)
    (hr : d.right.toNat < s.waveCount) (is : List Instr) :
    execAll (ldslot (BitVec.ofNat 6 i.val) d ++ is) s = execAll is (s.loadEntry i d) := by
  have hi : (BitVec.ofNat 6 i.val).toNat = i.val := by rw [BitVec.toNat_ofNat]; omega
  simp only [ldslot, List.cons_append, List.nil_append, execAll, exec_wslot, exec_wfact,
    State.writeWaves_of_inRange hi hl hr, State.writeFactor_of_inRange hi, State.loadEntry]

/-- Loading slots of a table whose waveforms are in the ROM leaves the loaded entries in their slots and changes nothing
else. -/
theorem execAll_loadSlots (table : DecodedTable) (order : List (Fin 61)) (s : State)
    (hwaves : ∀ i : Fin 61, (table[i]).left.toNat < s.waveCount ∧ (table[i]).right.toNat < s.waveCount) :
    ∃ t, execAll (loadSlots table order) s = .next t ∧
      (∀ i ∈ order, Claims.HoldsEntry t.table[i] table[i]) ∧ (∀ i, i ∉ order → t.table[i] = s.table[i]) ∧
      t = { s with table := t.table } := by
  induction order generalizing s with
  | nil => exact ⟨s, rfl, nofun, fun _ _ => rfl, rfl⟩
  | cons i order ih =>
    obtain ⟨t, ht, hloaded, hkept, hframe⟩ := ih (s.loadEntry i table[i]) hwaves
    obtain ⟨hl, hr⟩ := hwaves i
    refine ⟨t, ?_, fun j hj => ?_, fun j hj => ?_, ?_⟩
    · rw [loadSlots, List.flatMap_cons, execAll_ldslot_append i hl hr]
      exact ht
    · by_cases hmem : j ∈ order
      · exact hloaded j hmem
      · obtain rfl : j = i := (List.mem_cons.1 hj).resolve_right hmem
        rw [hkept j hmem]
        exact s.loadEntry_holds j _
    · obtain ⟨hne, hmem⟩ := List.ne_and_not_mem_of_not_mem_cons hj
      rw [hkept j hmem, s.loadEntry_other i _ hne]
    · rw [hframe]
      rfl

/-- Settles O53: every waveform of a decoded table is in the ROM it was decoded for. -/
theorem loadingADecodedTableRaisesNoError : Obligations.LoadingADecodedTableRaisesNoError := by
  intro s buf table used order h
  obtain ⟨t, ht, hloaded, hkept, hframe⟩ := execAll_loadSlots table order s (decodeRecord_waves_lt h)
  exact ⟨t, ht, by rw [hframe], hloaded, hkept, hframe⟩

end Sys2Proof.Machine

/-! The waveform interpolator (R130 to R136): the two halves of a mirrored waveform, inversion, and the bounds of
the blend as a weighted mean. -/

namespace Sys2Proof.Machine

/-- Inversion is the bitwise complement (R132). -/
theorem invertByte_eq_not (v : Byte) : invertByte v = ~~~v :=
  BitVec.eq_of_toNat_eq (by rw [invertByte_toNat, BitVec.toNat_not])

/-- Settles O39: the complement is its own inverse. -/
theorem inversionIsTheComplement : Obligations.InversionIsTheComplement := fun v =>
  ⟨invertByte_toNat v, invertByte_eq_not v, by rw [invertByte_eq_not, invertByte_eq_not, BitVec.not_not],
    by decide, by decide, by decide, by decide⟩

section
variable {p q : Nat}

/-- The first half stores its samples in order (R131). -/
theorem storedIndex_of_lt (h : p < 64) : storedIndex p = p := if_pos h

/-- The second half reads the stored samples backwards (R131). -/
theorem storedIndex_of_ge (h : 64 ≤ p) : storedIndex p = 127 - p := if_neg (by omega)

theorem invertedHalf_of_lt (h : p < 64) : invertedHalf p = false := decide_eq_false (by omega)

theorem invertedHalf_of_ge (h : 64 ≤ p) : invertedHalf p = true := decide_eq_true h

/-- No stored sample is read twice in the first half (R131). -/
theorem eq_of_storedIndex_firstHalf (hp : p < 64) (hq : q < 64) (h : storedIndex p = storedIndex q) : p = q := by
  rwa [storedIndex_of_lt hp, storedIndex_of_lt hq] at h

/-- No stored sample is read twice in the mirrored half (R131). -/
theorem eq_of_storedIndex_mirroredHalf (hp : p < 64) (hq : q < 64) (h : storedIndex (64 + p) = storedIndex (64 + q)) :
    p = q := by
  rw [storedIndex_of_ge (by omega), storedIndex_of_ge (by omega)] at h
  omega

end

/-- Settles O38: phase 0x8000 is where position 64, the first of the mirrored half, begins. -/
theorem phaseGivesPositionAndStoredIndex : Obligations.PhaseGivesPositionAndStoredIndex := by
  intro ph
  have hpos := logicalPosition_eq ph
  refine ⟨by omega, logicalPosition_lt ph, fun hfirst => ?_, fun hmirrored => ?_,
    storedIndex_lt (logicalPosition_lt ph), rfl,
    fun p q hp hq => ⟨eq_of_storedIndex_firstHalf hp hq, eq_of_storedIndex_mirroredHalf hp hq⟩⟩
  · have h : logicalPosition ph < 64 := by omega
    exact ⟨storedIndex_of_lt h, invertedHalf_of_lt h⟩
  · have h : 64 ≤ logicalPosition ph := by omega
    exact ⟨storedIndex_of_ge h, invertedHalf_of_ge h⟩

section
variable (s : State) (w : Byte) {p : Nat}

/-- A sample of the first half is the stored one (R133). -/
theorem State.waveSample_of_lt (h : p < 64) : s.waveSample w p = s.romByte (sampleAddress w p) := by
  simp [State.waveSample, storedIndex_of_lt h, invertedHalf_of_lt h]

/-- A sample of the mirrored half is the inverse of the one stored at its mirror image (R133). -/
theorem State.waveSample_of_ge (h : 64 ≤ p) :
    s.waveSample w p = invertByte (s.romByte (sampleAddress w (127 - p))) := by
  simp [State.waveSample, storedIndex_of_ge h, invertedHalf_of_ge h]

end

/-- Settles O40: both positions fetch stored sample `63 - p`. -/
theorem mirroringLaw : Obligations.MirroringLaw := by
  intro s w p hp
  have hmirror : 127 - (p + 64) = 63 - p := by omega
  rw [s.waveSample_of_ge w (by omega), s.waveSample_of_lt w (by omega), hmirror, invertByte_toNat]

section
variable {sL sR : Byte} {m : Nat}

/-- The weights of the blend add up to 256 (R135). -/
theorem blend_weights (f : Byte) (m : Nat) : m * (256 - f.toNat) + m * f.toNat = m * 256 := by
  rw [← Nat.mul_add, Nat.sub_add_cancel f.isLt.le]

/-- The blend is at least every number that neither sample is below (R135). -/
theorem le_blend_toNat (f : Byte) (hL : m ≤ sL.toNat) (hR : m ≤ sR.toNat) : m ≤ (blend sL sR f).toNat := by
  rw [blend_toNat, Nat.le_div_iff_mul_le (by decide), ← blend_weights f m]
  exact Nat.add_le_add (Nat.mul_le_mul_right _ hL) (Nat.mul_le_mul_right _ hR)

/-- The blend is at most every number that neither sample is above (R135). -/
theorem blend_toNat_le (f : Byte) (hL : sL.toNat ≤ m) (hR : sR.toNat ≤ m) : (blend sL sR f).toNat ≤ m := by
  rw [blend_toNat]
  apply Nat.div_le_of_le_mul
  rw [Nat.mul_comm 256, ← blend_weights f m]
  exact Nat.add_le_add (Nat.mul_le_mul_right _ hL) (Nat.mul_le_mul_right _ hR)

end

/-- Factor 0 gives the left sample (R136 (a)). -/
theorem blend_zero (sL sR : Byte) : blend sL sR 0 = sL :=
  BitVec.eq_of_toNat_eq (by simp [blend_toNat])

/-- Equal samples blend to themselves (R136 (b)). -/
theorem blend_self (v f : Byte) : blend v v f = v :=
  BitVec.eq_of_toNat_eq (le_antisymm (blend_toNat_le f le_rfl le_rfl) (le_blend_toNat f le_rfl le_rfl))

/-- The blend lies between the two samples (R136 (c)). -/
theorem blend_between (sL sR f : Byte) :
    min sL.toNat sR.toNat ≤ (blend sL sR f).toNat ∧ (blend sL sR f).toNat ≤ max sL.toNat sR.toNat :=
  ⟨le_blend_toNat f (min_le_left _ _) (min_le_right _ _), blend_toNat_le f (le_max_left _ _) (le_max_right _ _)⟩

/-- Factor 255 leaves 1/256 of the left sample (R136 (d)). -/
theorem blend_255_toNat (sL sR : Byte) : (blend sL sR 255).toNat = (sL.toNat + 255 * sR.toNat) / 256 := by
  simp [blend_toNat, Nat.mul_comm]

/-- Factor 255 gives the right sample only where it is not above the left one, and there it does (R136 (d)). -/
theorem blend_255_eq_right_iff (sL sR : Byte) : blend sL sR 255 = sR ↔ sR.toNat ≤ sL.toNat := by
  have hL := sL.isLt
  rw [← BitVec.toNat_inj, blend_255_toNat]
  omega

/-- Settles O41: each consequence by its lemma, the numbers by evaluation. -/
theorem blendConsequences : Obligations.BlendConsequences :=
  ⟨fun s ph hfactor => by simp only [State.sampleAt, State.lookupSlot, hfactor, blend_zero], blend_self, blend_between,
    fun sL sR => ⟨blend_255_toNat sL sR, blend_255_eq_right_iff sL sR⟩, by decide, by decide, by decide⟩

end Sys2Proof.Machine

/-! One filter stage (R160 to R163): the machine's arithmetic as the integers' own truncating division and saturation, and
what the operands of the block can make of it. -/

namespace Sys2Proof.Machine

/-- The machine's division is the integers' own truncating division (R161). -/
theorem tdiv256_eq_tdiv (v : Int) : tdiv256 v = Int.tdiv v 256 := by
  by_cases h : 0 ≤ v
  · rw [tdiv256, if_pos h, Int.tdiv_eq_ediv_of_nonneg h]
  · rw [tdiv256, if_neg h, ← Int.tdiv_eq_ediv_of_nonneg (by omega), Int.neg_tdiv, neg_neg]

/-- Settles O43. -/
theorem divisionRoundsTowardZero : Obligations.DivisionRoundsTowardZero :=
  ⟨tdiv256_eq_tdiv, by decide, by decide, by decide, by decide, by decide⟩

/-- The machine's saturation is the spec's, as a minimum and a maximum (R8). -/
theorem sat16_eq_saturated (v : Int) : sat16 v = Claims.saturated v := by
  simp only [sat16, clampInt, Claims.saturated]
  omega

/-- Saturation passes no bound that the value keeps, down to its own lower end (R162). -/
theorem sat16_le {v m : Int} (hv : v ≤ m) (hm : -32767 ≤ m) : sat16 v ≤ m := by
  rw [sat16_eq_saturated]
  exact max_le hm ((min_le_right _ _).trans hv)

/-- The machine's stage is R160's formula. -/
theorem stageIntegrator_eq_newIntegrator (i x c : Int) : stageIntegrator i x c = Claims.newIntegrator i x c := by
  simp only [stageIntegrator, Claims.newIntegrator, sat16_eq_saturated, tdiv256_eq_tdiv]

/-- A stage with nothing to add holds an integrator in range (R160, R163). -/
theorem stage_of_mul_eq_zero {i x c : Int} (hlow : -32767 ≤ i) (hhigh : i ≤ 32767) (h : c * (x - tdiv256 i) = 0) :
    stage i x c = (i, tdiv256 i) := by
  have hhold : stageIntegrator i x c = i := by
    rw [stageIntegrator, h, sat16_of_range (v := 0) (by decide) (by decide), add_zero, sat16_of_range hlow hhigh]
  rw [stage, hhold]

/-- Settles O44. -/
theorem stageMovesItsIntegrator : Obligations.StageMovesItsIntegrator := by
  refine ⟨fun i x c => ?_, fun i x hlow hhigh => ?_⟩
  · rw [← tdiv256_eq_tdiv, ← stageIntegrator_eq_newIntegrator]
    rfl
  · rw [← tdiv256_eq_tdiv]
    exact stage_of_mul_eq_zero hlow hhigh (zero_mul _)

/-- What a stage adds is at most 0 or 255 times the difference it is given (R163). -/
theorem coef_mul_le {c d : Int} (hc : 0 ≤ c) (hc' : c ≤ 255) : c * d ≤ max 0 (255 * d) := by
  obtain hd | hd := le_total d 0
  · exact (mul_nonpos_of_nonneg_of_nonpos hc hd).trans (le_max_left _ _)
  · exact (mul_le_mul_of_nonneg_right hc' hd).trans (le_max_right _ _)

section
variable {i x c : Int} (hlow : -32767 ≤ i) (hhigh : i ≤ 32767)
include hlow hhigh

/-- The product of a stage is within 255 * 255 (R163 (b)). -/
theorem stage_product_range (hx : -128 ≤ x) (hx' : x ≤ 127) (hc : 0 ≤ c) (hc' : c ≤ 255) :
    -255 ≤ x - tdiv256 i ∧ x - tdiv256 i ≤ 255 ∧
      -65025 ≤ c * (x - tdiv256 i) ∧ c * (x - tdiv256 i) ≤ 65025 := by
  obtain ⟨hdiv, hdiv'⟩ := tdiv256_range hlow hhigh
  have hupper := coef_mul_le (d := x - tdiv256 i) hc hc'
  have hlower := coef_mul_le (d := -(x - tdiv256 i)) hc hc'
  rw [mul_neg] at hlower
  omega

/-- The second clamp never acts at its upper end (R163 (c)): the higher the integrator, the less the stage adds. -/
theorem stage_sum_le (hx' : x ≤ 127) (hc : 0 ≤ c) (hc' : c ≤ 255) : i + sat16 (c * (x - tdiv256 i)) ≤ 32767 := by
  have hadd := sat16_le (coef_mul_le (d := x - tdiv256 i) hc hc') (by omega)
  have hroom : i + max 0 (255 * (x - tdiv256 i)) ≤ 32767 := by
    simp only [tdiv256]
    omega
  omega

/-- A stage is at rest where its output is its input already (R163 (d)). -/
theorem stage_of_tdiv256_eq (h : tdiv256 i = x) : stage i x c = (i, x) := by
  rw [stage_of_mul_eq_zero hlow hhigh (by rw [h, sub_self, mul_zero]), h]

end

/-- Settles O45: each consequence by its lemma, the numbers by evaluation. -/
theorem stageConsequences : Obligations.StageConsequences := by
  refine ⟨fun i x c hlow hhigh hx hx' hc hc' => ?_, by decide, by decide, by decide, by decide, by decide⟩
  obtain ⟨hdiv, hdiv'⟩ := tdiv256_range hlow hhigh
  obtain ⟨hout, hout'⟩ := stage_output_range i x c
  refine ⟨⟨hdiv, hdiv', hout, hout'⟩, stage_product_range hlow hhigh hx hx' hc hc',
    stage_sum_le hlow hhigh hx' hc hc', stage_of_tdiv256_eq hlow hhigh, fun hzero hsmall hsmall' => ?_⟩
  subst hzero
  have hrest : tdiv256 i = 0 := by
    simp only [tdiv256]
    omega
  exact stage_of_tdiv256_eq hlow hhigh hrest

end Sys2Proof.Machine

/-! TICK as numbers (R170): the interpolator's output, the two stages, and the sample that is never clipped (R166). -/

namespace Sys2Proof.Machine

section
variable (s : State)

/-- A waveform's sample at a phase, as a number (R130 to R133). -/
theorem State.waveSample_toNat (w : Byte) (ph : BitVec 16) :
    (s.waveSample w (logicalPosition ph)).toNat = Claims.mirroredSample s w ph.toNat := by
  rw [Claims.mirroredSample, ← logicalPosition_eq]
  obtain h | h := Nat.lt_or_ge (logicalPosition ph) 64
  · rw [s.waveSample_of_lt w h, if_pos h]
    rfl
  · rw [s.waveSample_of_ge w h, invertByte_toNat, if_neg (by omega)]
    rfl

/-- The interpolator's output at a phase, as a number (R135, R137). -/
theorem State.sampleAt_toNat (ph : BitVec 16) : (s.sampleAt ph).toNat = Claims.blendedSample s ph.toNat := by
  simp only [State.sampleAt, State.lookupSlot, blend_toNat, State.waveSample_toNat, Claims.blendedSample]

/-- The phase after an advance, as a number (R150). -/
theorem State.nextPhase_toNat : s.nextPhase.toNat = (s.phase.toNat + s.phaseStep.toNat) % 65536 :=
  BitVec.toNat_add _ _

/-- OUT after TICK is the second stage's output and the centre, unclipped, which is at least 1 (R163 (a), R166). -/
theorem State.tick_out_toNat :
    (s.tick.out.toNat : Int) = Int.tdiv s.tick.int2.toInt 256 + 128 ∧ 1 ≤ s.tick.out.toNat := by
  obtain ⟨hlow, hhigh⟩ := stage_output_range s.int2.toInt
    (stage s.int1.toInt (centred (s.sampleAt s.nextPhase)) (s.coef.toNat : Int)).2 (s.coef.toNat : Int)
  have hout := outputSample_toNat hlow hhigh
  rw [State.tick_int2_toInt, ← tdiv256_eq_tdiv]
  exact ⟨hout, by rw [State.tick_out, State.tickOutput]; omega⟩

/-- The whole effect of TICK, the interpolator's output from the looked-up entry (R170). -/
theorem State.tickEffect : Claims.TickEffect (Claims.blendedSample s) s s.tick := by
  refine ⟨s.nextPhase_toNat, s.sampleAt_toNat s.nextPhase, ?_, ?_, ?_, BitVec.toNat_add _ _, rfl, rfl⟩
  · rw [State.tick_int1_toInt, stageIntegrator_eq_newIntegrator]
    rfl
  · rw [State.tick_int2_toInt, ← State.tick_int1_toInt, stageIntegrator_eq_newIntegrator, tdiv256_eq_tdiv]
  · have hrange := s.tick.out.isLt
    obtain ⟨hout, -⟩ := s.tick_out_toNat
    omega

end

/-- Settles O35. -/
theorem tickCompletesFromEveryState : Obligations.TickCompletesFromEveryState :=
  fun s => ⟨s.tick, exec_tick s, s.tickEffect⟩

/-- Settles O46. -/
theorem tickNeverEmitsZero : Obligations.TickNeverEmitsZero := fun s =>
  have ⟨hout, hpos⟩ := s.tick_out_toNat
  ⟨s.tick, exec_tick s, hout, hpos, rfl⟩

section
variable {s : State}

/-- A sample of a waveform of the ROM is fetched from the ROM (R60, R105). -/
theorem State.romByte_of_wave_lt {w : Byte} {k : Nat} (hw : w.toNat < s.waveCount) (hk : k < 64) :
    s.romByte (64 * w.toNat + k) = Memory.read s.rom (64 * w.toNat + k) :=
  if_pos (sampleAddress_lt hw hk)

/-- For a slot that is ready to be played, the interpolator reads the stored bits and the ROM alone (R104, R245). -/
theorem State.Inv.blendedSample_eq_storedSample (hs : s.Inv) (hready : s.slotReady s.slot) :
    Claims.blendedSample s = Claims.storedSample s := by
  funext ph
  obtain ⟨hl, hr, hf⟩ := hready
  have hleft := hs.left_in_rom s.slot hl
  have hright := hs.right_in_rom s.slot hr
  simp only [Claims.blendedSample, Claims.storedSample, Claims.mirroredSample, State.leftOf, State.rightOf,
    State.factorOf, Stored.value_of_written hl, Stored.value_of_written hr, Stored.value_of_written hf]
  by_cases hp : ph / 512 < 64
  · simp only [if_pos hp, State.romByte_of_wave_lt hleft hp, State.romByte_of_wave_lt hright hp]
  · have hk : 127 - ph / 512 < 64 := by omega
    simp only [if_neg hp, State.romByte_of_wave_lt hleft hk, State.romByte_of_wave_lt hright hk]

end

/-- Settles O34: what TICK does from every state, with the interpolator's output read from stored fields. -/
theorem tickOfALoadedSlotProducesItsSample : Obligations.TickOfALoadedSlotProducesItsSample := by
  refine ⟨encodedAs_commandRow 1, fun s hs hready => ⟨s.tick, exec_tick s, ?_⟩⟩
  rw [← hs.blendedSample_eq_storedSample hready]
  exact s.tickEffect

end Sys2Proof.Machine

/-! Sequences of TICKs (R151): the phase after `n` of them, and when it returns. -/

namespace Sys2Proof.Machine

open HostSide (tickn)

/-- `n` TICKs complete, and each does what TICK does (R68, R95). -/
theorem execAll_tickn (n : Nat) (s : State) : execAll (tickn n) s = .next (State.tick^[n] s) := by
  induction n generalizing s with
  | zero => rfl
  | succ n ih => exact ih s.tick

section
variable (n : Nat) (s : State)

/-- Each TICK adds STEP, which no TICK changes (R150, R151). -/
theorem State.ticks_phase_toNat :
    (State.tick^[n] s).phase.toNat = (s.phase.toNat + n * s.phaseStep.toNat) % 65536 := by
  induction n generalizing s with
  | zero =>
    rw [Nat.zero_mul, Nat.add_zero]
    exact (Nat.mod_eq_of_lt s.phase.isLt).symm
  | succ n ih =>
    rw [Function.iterate_succ_apply, ih s.tick, State.tick_phase, State.nextPhase_toNat, State.tick_phaseStep,
      Nat.mod_add_mod, Nat.succ_mul]
    congr 1
    omega

theorem State.ticks_emitted_length : (State.tick^[n] s).emitted.length = s.emitted.length + n := by
  induction n generalizing s with
  | zero => rfl
  | succ n ih =>
    rw [Function.iterate_succ_apply, ih s.tick, State.tick_emitted, List.length_append, List.length_singleton]
    omega

/-- COUNT counts the TICKs, as over every list of commands without SRST (R29). -/
theorem State.ticks_count_toNat : (State.tick^[n] s).count.toNat = (s.count.toNat + n) % 2 ^ 32 := by
  have hsrst : Instr.srst ∉ tickn n := by simp [tickn]
  rw [countCountsTicks _ s _ hsrst (execAll_tickn n s), tickn, List.count_replicate_self]

end

/-- Settles O47. -/
theorem phaseAfterTicks : Obligations.PhaseAfterTicks := fun n s =>
  ⟨State.tick^[n] s, execAll_tickn n s, s.ticks_phase_toNat n, s.ticks_count_toNat n, s.ticks_emitted_length n⟩

/-- Adding a step `n` times comes back modulo `m` exactly for the multiples of `m / gcd(step, m)`. -/
theorem add_mul_modEq_self_iff {m : Nat} (hm : 0 < m) (start step n : Nat) :
    start + n * step ≡ start [MOD m] ↔ m / Nat.gcd step m ∣ n := by
  rw [Nat.add_modEq_left_iff, Nat.div_dvd_iff_dvd_mul (Nat.gcd_dvd_right step m) (Nat.gcd_pos_of_pos_right step hm),
    Nat.gcd_comm, Nat.dvd_gcd_mul_iff_dvd_mul, Nat.mul_comm]

/-- Settles O48: the phase returns when the steps add up to a multiple of the whole cycle. -/
theorem phasePeriod : Obligations.PhasePeriod := by
  intro n s t h
  rw [execAll_tickn, Host.Outcome.next.injEq] at h
  subst h
  have hstart : s.phase.toNat % 65536 = s.phase.toNat := Nat.mod_eq_of_lt s.phase.isLt
  rw [← add_mul_modEq_self_iff (by decide) s.phase.toNat, Nat.ModEq, hstart, ← State.ticks_phase_toNat,
    BitVec.toNat_inj]

end Sys2Proof.Machine

/-! The host's phase step of a frequency (R152). -/

namespace Sys2Proof.HostSide

section
variable {num den sampleRate : Nat} (hpos : 0 < den * sampleRate)
include hpos

/-- The host's phase step is the rounded ratio where that fits 16 bits (R152). -/
theorem phaseStepOf_eq_some {v : BitVec 16} (h : phaseStepOf num den sampleRate = some v) :
    v.toNat = (2 * (65536 * num) + den * sampleRate) / (2 * (den * sampleRate)) := by
  rw [phaseStepOf, if_neg hpos.ne'] at h
  obtain ⟨hfits, hv⟩ := Option.ite_none_right_eq_some.1 h
  obtain rfl := Option.some.inj hv
  rw [BitVec.toNat_ofNat, Nat.mod_eq_of_lt hfits]

/-- The host's phase step has no value exactly where the rounded ratio does not fit 16 bits (R152). -/
theorem phaseStepOf_eq_none_iff : phaseStepOf num den sampleRate = none ↔
    65536 ≤ (2 * (65536 * num) + den * sampleRate) / (2 * (den * sampleRate)) := by
  rw [phaseStepOf, if_neg hpos.ne']
  simp

end

/-- The quotient of R152 is the ratio `a / d` rounded to the nearest number, halves up. -/
theorem rounded_quotient_bounds (a : Nat) {d : Nat} (hd : 0 < d) :
    (2 * ((2 * a + d) / (2 * d) : Nat) - 1 : Int) * d ≤ 2 * a ∧
      2 * (a : Int) < (2 * ((2 * a + d) / (2 * d) : Nat) + 1) * d := by
  have hlow := Nat.div_mul_le_self (2 * a + d) (2 * d)
  have hhigh := Nat.lt_mul_div_succ (2 * a + d) (b := 2 * d) (by omega)
  generalize (2 * a + d) / (2 * d) = q at *
  zify at hlow hhigh
  constructor <;> linarith

/-- Settles O59. -/
theorem phaseStepRoundsHalfUp : Obligations.PhaseStepRoundsHalfUp := by
  intro num den sampleRate hpos
  refine ⟨fun v hv => ?_, ?_⟩
  · have hbounds := rounded_quotient_bounds (65536 * num) hpos
    rw [← phaseStepOf_eq_some hpos hv] at hbounds
    push_cast at hbounds
    rwa [← mul_assoc (2 : Int)] at hbounds
  · rw [phaseStepOf_eq_none_iff hpos, Nat.le_div_iff_mul_le (by omega)]
    omega

end Sys2Proof.HostSide

/-! The control and status commands (R180 to R196): their words and their effects, with the selectors of READ. -/

namespace Sys2Proof.Machine

/-- The selector of R188 that names a register or a slot entry. -/
def Selected.selector : Selected → Nat
  | .status => 0x00
  | .phase => 0x01
  | .phaseStep => 0x02
  | .slot => 0x03
  | .coef => 0x04
  | .raw => 0x05
  | .out => 0x06
  | .int1 => 0x07
  | .int2 => 0x08
  | .count => 0x09
  | .param => 0x0A
  | .entry i => 0x40 + i.val

/-- What READ finds by a selector has that selector (R188). -/
theorem toNat_eq_selector_of_selectedBy {sel : Byte} {x : Selected} (h : selectedBy sel = some x) :
    sel.toNat = x.selector := by
  simp only [selectedBy] at h
  split at h
  case h_12 =>
    obtain ⟨hrange, hx⟩ := Option.dite_none_right_eq_some.1 h
    cases hx
    exact (Nat.add_sub_cancel' hrange.1).symm
  all_goals
    cases h
    assumption

theorem statusWord_toNat (err : BitVec 2) : (statusWord err).toNat = err.toNat :=
  (append_toNat 0#30 err).trans (Nat.zero_add _)

section
variable (s : State)

/-- A slot entry as READ gives it, as a number (R188). -/
theorem State.entryWord_toNat (i : Fin 61) : (s.entryWord i).toNat =
    (s.keyOf i).toNat * 2 ^ 24 + (s.leftOf i).toNat * 2 ^ 16 + (s.rightOf i).toNat * 2 ^ 8 + (s.factorOf i).toNat := by
  simp only [State.entryWord]
  erw [append_toNat, append_toNat, append_toNat, append_toNat]
  simp only [BitVec.toNat_zero]
  ring

/-- Above the registers, R188's list has the slot entries alone. -/
theorem readValue_of_gt {n : Nat} (h : 0x0A < n) : Claims.readValue s n =
    if h : 0x40 ≤ n ∧ n - 0x40 < 61 then some (s.entryWord ⟨n - 0x40, h.2⟩).toNat else none := by
  have hne : ∀ k ≤ 0x0A, n ≠ k := by omega
  simp [Claims.readValue, hne, State.entryWord_toNat]

/-- The selector of each register and slot entry has in R188's list the number that READ gives. -/
theorem readValue_selector (hcount : s.waveCount ≤ 256) (x : Selected) :
    Claims.readValue s x.selector = some (s.readSelected x).toNat := by
  cases x with
  | status => exact congrArg some (statusWord_toNat s.err).symm
  | phase | phaseStep | coef | raw | out => exact congrArg some (BitVec.toNat_setWidth_of_le (by decide)).symm
  | slot => exact congrArg some (Nat.mod_eq_of_lt (by omega)).symm
  | int1 | int2 | count => rfl
  | param => exact congrArg some (State.param_toNat hcount).symm
  | entry i =>
    rw [Selected.selector, readValue_of_gt s (by omega), dif_pos (by omega)]
    simp [State.readSelected]

/-- R188's list has no value for a selector that names nothing. -/
theorem readValue_eq_none_of_selectedBy {sel : Byte} (h : selectedBy sel = none) :
    Claims.readValue s sel.toNat = none := by
  obtain ⟨hgt, hrange⟩ := (selectedBy_eq_none_iff sel).1 h
  rw [readValue_of_gt s hgt, dif_neg (by omega)]

/-- An error never lowers ERR (R214). -/
theorem State.err_le_raiseError_err (c : ErrorCause) : s.err.toNat ≤ (s.raiseError c).err.toNat := by
  rw [State.raiseError_err, stickyError]
  split
  next h => simp [h]
  next => rfl

end

/-- Settles O30: by what the selector names. -/
theorem readCopiesTheSelectedRegister : Obligations.ReadCopiesTheSelectedRegister := by
  refine ⟨encodedAs_commandRow 7, fun sel s hcount => ?_⟩
  cases hsel : selectedBy sel with
  | none =>
    rw [readValue_eq_none_of_selectedBy s hsel, exec_read, State.readInto, hsel]
    rfl
  | some x =>
    rw [toNat_eq_selector_of_selectedBy hsel, readValue_selector s hcount, exec_read, State.readInto_of_selected hsel]
    simp only [BitVec.ofNat_toNat, BitVec.setWidth_eq]
    rfl

/-- Settles O23: an error does not lower ERR, and a command that raises none and is not CLRERR keeps it. -/
theorem clrerrClearsErr : Obligations.ClrerrClearsErr := by
  refine ⟨encodedAs_commandRow 8, exec_clrerr, fun i s t h hlt => ?_⟩
  cases exec_effect h with
  | clrerr => rfl
  | wslotError _ _ _ _ c => exact absurd hlt (s.err_le_raiseError_err c).not_gt
  | wfactError _ _ c => exact absurd hlt (s.err_le_raiseError_err c).not_gt
  | readError _ c => exact absurd hlt (s.err_le_raiseError_err c).not_gt
  | _ => exact absurd hlt (lt_irrefl _)

/-- Settles O24. -/
theorem nopChangesNothing : Obligations.NopChangesNothing :=
  ⟨encodedAs_commandRow 0, exec_nop⟩

/-- Settles O25. -/
theorem setstepWritesStep : Obligations.SetstepWritesStep :=
  ⟨encodedAs_commandRow 2, fun imm16 s => exec_setstep s imm16⟩

/-- Settles O26: the clamped slot is the slot whose number is the smaller of the operand and 60. -/
theorem setslotWritesTheClampedSlot : Obligations.SetslotWritesTheClampedSlot := by
  refine ⟨encodedAs_commandRow 3, fun imm8 s i hi => ?_⟩
  have hclamp : clampedSlot imm8 = i := Fin.ext ((clampedSlot_val imm8).trans hi.symm)
  rw [exec_setslot, hclamp]
  rfl

/-- Settles O27. -/
theorem setcoefWritesCoef : Obligations.SetcoefWritesCoef :=
  ⟨encodedAs_commandRow 4, fun imm8 s => exec_setcoef s imm8⟩

/-- Settles O33. -/
theorem srstRestartsTheDatapath : Obligations.SrstRestartsTheDatapath :=
  ⟨encodedAs_commandRow 9, exec_srst⟩

end Sys2Proof.Machine

/-! The exceptions (R210 to R219): which error a word raises, how long it stays, and that it stops nothing. -/

namespace Sys2Proof

/-- The error that the field values of a command raise on a block with `waveCount` waveforms, in the order of R215. -/
def Instr.fieldError (waveCount : Nat) : Instr → Option Machine.ErrorCause
  | .wslot slot _ wl wr =>
    if 60 < slot.toNat then some .invalidFormat
    else if waveCount ≤ wl.toNat ∨ waveCount ≤ wr.toNat then some .outOfRange
    else none
  | .wfact slot _ => if 60 < slot.toNat then some .invalidFormat else none
  | .read sel => if 0x0A < sel.toNat ∧ (sel.toNat < 0x40 ∨ 0x7C < sel.toNat) then some .illegalCmd else none
  | _ => none

/-- A command whose fields raise no error has them all in range (R93). -/
theorem Instr.wellFormed_of_fieldError_eq_none {waveCount : Nat} {i : Instr} (h : i.fieldError waveCount = none) :
    i.wellFormed waveCount = true := by
  cases i with
  | wslot slot key wl wr =>
    simp only [Instr.fieldError] at h
    split_ifs at h
    exact wellFormed_wslot_iff.2 (by omega)
  | wfact slot fac =>
    simp only [Instr.fieldError] at h
    split_ifs at h
    exact slotInTable_iff.2 (by omega)
  | read sel =>
    simp only [Instr.fieldError] at h
    split_ifs at h
    exact selectorListed_iff.2 (by omega)
  | _ => rfl

/-- A word is a command exactly when it matches a row of the opcode map (R90). -/
theorem decodeWord_ne_ok_iff {w : Word} :
    (∀ i, decodeWord w ≠ .ok i) ↔ ∀ row ∈ Claims.opcodeRows, w &&& row.2 ≠ row.1 := by
  have hrows : Claims.opcodeRows = commandRows.map fun r => (r.pattern, r.mask) := rfl
  simp only [hrows, List.forall_mem_map]
  constructor
  · intro h row hrow hmatch
    obtain ⟨n, hn, rfl⟩ := List.getElem_of_mem hrow
    exact h _ (decodeWord_of_match ⟨n, hn⟩ hmatch)
  · intro h i hi
    obtain ⟨row, hrow, hmatch, -⟩ := Machine.decodeWord_ok hi
    exact h row (List.mem_of_getElem? hrow) hmatch

/-- A word that is no command raises ILLEGAL_CMD before anything else is looked at (R215). -/
theorem errorOf_of_no_command {w : Word} (h : ∀ i, decodeWord w ≠ .ok i) (waveCount : Nat) :
    Claims.errorOf waveCount w = some 1 := by
  rw [decodeWord_ne_ok_iff] at h
  exact if_pos (List.all_eq_true.2 fun row hrow => decide_eq_true (h row hrow))

/-- The error of a word that is a command, by the word's fields (R215). -/
theorem errorOf_of_command {w : Word} {i : Instr} (h : decodeWord w = .ok i) (waveCount : Nat) :
    Claims.errorOf waveCount w =
      if ((opcodeOf w).toNat = 5 ∨ (opcodeOf w).toNat = 6) ∧ 60 < (slotField w).toNat then some 2
      else if (opcodeOf w).toNat = 5 ∧ (waveCount ≤ (wlField w).toNat ∨ waveCount ≤ (lowByteField w).toNat) then
        some 3
      else if (opcodeOf w).toNat = 7 ∧ 0x0A < (lowByteField w).toNat ∧
        ((lowByteField w).toNat < 0x40 ∨ 0x7C < (lowByteField w).toNat) then some 1
      else none := by
  have hmatches : ¬ ∀ row ∈ Claims.opcodeRows, w &&& row.2 ≠ row.1 := fun hnone =>
    decodeWord_ne_ok_iff.2 hnone i h
  rw [opcodeOf_toNat, slotField_toNat, wlField_toNat, lowByteField_toNat]
  exact if_neg fun hall => hmatches fun row hrow => of_decide_eq_true (List.all_eq_true.1 hall row hrow)

/-- The error of a word that is a command is the one its field values raise (R210 to R212, R215). -/
theorem errorOf_eq_fieldError {w : Word} {i : Instr} (h : decodeWord w = .ok i) (waveCount : Nat) :
    Claims.errorOf waveCount w = (i.fieldError waveCount).map Machine.errorCode := by
  rw [errorOf_of_command h]
  obtain ⟨row, hrow, -, rfl⟩ := Machine.decodeWord_ok h
  obtain ⟨hlt, rfl⟩ := List.getElem?_eq_some_iff.1 hrow
  generalize (opcodeOf w).toNat = n at hlt
  change n < 10 at hlt
  interval_cases n <;> simp [commandRows, Instr.fieldError, apply_ite (Option.map _), Machine.errorCode]

end Sys2Proof

namespace Sys2Proof.Machine

/-- A command whose field values raise an error does nothing else (R214). -/
theorem exec_of_fieldError {i : Instr} {s : State} {c : ErrorCause} (h : i.fieldError s.waveCount = some c) :
    exec i s = .next (s.raiseError c) := by
  cases i with
  | wslot slot key wl wr =>
    simp only [Instr.fieldError] at h
    split_ifs at h with hslot hw <;> cases h
    · rw [exec_wslot, State.writeWaves_of_slot_gt s hslot]
    · rw [exec_wslot, State.writeWaves_of_wave_outOfRange s (Nat.le_of_not_lt hslot) hw]
  | wfact slot fac =>
    simp only [Instr.fieldError] at h
    split_ifs at h with hslot
    cases h
    rw [exec_wfact, State.writeFactor_of_slot_gt s hslot]
  | read sel =>
    simp only [Instr.fieldError] at h
    split_ifs at h with hsel
    cases h
    rw [exec_read, State.readInto, (selectedBy_eq_none_iff sel).2 hsel]
  | _ => cases h

/-- The only word of CLRERR is `0x80000000` (R90, R194). -/
theorem eq_clrerr_iff {w : Word} {i : Instr} (h : decodeWord w = .ok i) : i = .clrerr ↔ w = 0x80000000 := by
  constructor
  · rintro rfl
    exact (encode_of_decodeWord h).symm
  · rintro rfl
    exact Except.ok.inj (h.symm.trans (decodeWord_encode .clrerr))

/-- Settles O19: a word that is no command, and, for a command, its field values in error or in range. -/
theorem errorsArePreciseAndInOrder : Obligations.ErrorsArePreciseAndInOrder := by
  intro w s
  cases hw : decodeWord w with
  | error e =>
    have hnone : ∀ i, decodeWord w ≠ .ok i := fun i hi => by rw [hw] at hi; cases hi
    rw [errorOf_of_no_command hnone]
    refine ⟨fun c hc => ?_, fun hc => by cases hc⟩
    cases hc
    exact execWord_of_no_command hnone s
  | ok i =>
    rw [errorOf_eq_fieldError hw, execWord_of_decodeWord_ok hw]
    refine ⟨fun c hc => ?_, fun hnone => ?_⟩
    · obtain ⟨cause, hcause, rfl⟩ := Option.map_eq_some_iff.1 hc
      exact exec_of_fieldError hcause
    · obtain ⟨t, ht⟩ := exec_answers i s
      have hi := Instr.wellFormed_of_fieldError_eq_none (Option.map_eq_none_iff.1 hnone)
      have herr := exec_err_of_wellFormed hi ht
      simp only [eq_clrerr_iff hw] at herr
      exact ⟨t, ht, herr⟩

/-- Settles O20: the set bit stands in a should-be-zero field, and the other two words are those of WSLOT commands. -/
theorem errorPriorityExamples : Obligations.ErrorPriorityExamples := by
  intro s hcount
  refine ⟨shouldBeZeroBitRaisesIllegalCmd _ s (by decide), ?_, ?_⟩
  · refine (execWord_encode (.wslot 63 0 255 255) s).trans ?_
    exact congrArg Host.Outcome.next (State.writeWaves_of_slot_gt (slot := 63) s (by decide) 0 255 255)
  · refine (execWord_encode (.wslot 60 0 255 255) s).trans ?_
    exact congrArg Host.Outcome.next
      (State.writeWaves_of_wave_outOfRange (slot := 60) (wl := 255) s (by decide) (.inl hcount) 0)

/-- An error leaves the code of an earlier one (R214). -/
theorem State.raiseError_err_of_ne_zero {s : State} (h : s.err ≠ 0) (c : ErrorCause) : (s.raiseError c).err = s.err :=
  if_neg h

/-- Only CLRERR writes ERR once it is not 0 (R214, R219). -/
theorem exec_keeps_nonzero_err {i : Instr} {s t : State} (h : exec i s = .next t) (herr : s.err ≠ 0)
    (hi : i ≠ .clrerr) : t.err = s.err := by
  cases exec_effect h with
  | clrerr => exact absurd rfl hi
  | wslotError _ _ _ _ c => exact State.raiseError_err_of_ne_zero herr c
  | wfactError _ _ c => exact State.raiseError_err_of_ne_zero herr c
  | readError _ c => exact State.raiseError_err_of_ne_zero herr c
  | _ => rfl

/-- Settles O21, by the cases of a step. -/
theorem firstErrorStaysUntilCleared : Obligations.FirstErrorStaysUntilCleared := by
  intro s t h herr hne
  obtain ⟨-, rfl⟩ | ⟨rest, hp, rfl⟩ | ⟨w, rest, i, hp, hw, he⟩ | ⟨-, -, -, -, -, rfl⟩ := step_cases h
  · exact absurd rfl hne
  · exact ⟨rfl, .inr (by rw [hp]; rfl)⟩
  · by_cases hi : i = .clrerr
    · rw [hp, (eq_clrerr_iff hw).1 hi]
      subst hi
      cases he
      exact ⟨rfl, .inl rfl⟩
    · exact absurd (exec_keeps_nonzero_err he herr hi) hne
  · exact absurd (State.raiseError_err_of_ne_zero (s := s.takeInput) herr _) hne

section
variable (s : State) (e : BitVec 2)

theorem State.writeWaves_withErr (slot : BitVec 6) (key : BitVec 1) (wl wr : Byte) :
    { { s with err := e }.writeWaves slot key wl wr with err := (s.writeWaves slot key wl wr).err } =
      s.writeWaves slot key wl wr := by
  simp only [State.writeWaves]
  cases slotIndex slot with
  | none => rfl
  | some i => dsimp only; split <;> rfl

theorem State.writeFactor_withErr (slot : BitVec 6) (fac : Byte) :
    { { s with err := e }.writeFactor slot fac with err := (s.writeFactor slot fac).err } = s.writeFactor slot fac := by
  simp only [State.writeFactor]
  cases slotIndex slot <;> rfl

/-- STATUS is all that READ gives of ERR (R188). -/
theorem State.readSelected_withErr {x : Selected} (hx : x ≠ .status) :
    { s with err := e }.readSelected x = s.readSelected x := by
  cases x with
  | status => exact absurd rfl hx
  | _ => rfl

theorem State.readInto_withErr {sel : Byte} (hsel : sel ≠ 0) :
    { { s with err := e }.readInto sel with err := (s.readInto sel).err } = s.readInto sel := by
  simp only [State.readInto]
  cases hx : selectedBy sel with
  | none => rfl
  | some x =>
    have hstatus : x ≠ .status := by
      rintro rfl
      exact hsel (BitVec.eq_of_toNat_eq (toNat_eq_selector_of_selectedBy hx))
    dsimp only
    rw [State.readSelected_withErr s e hstatus]
    rfl

end

/-- Settles O22: only READ of STATUS and the raising of an error look at ERR, and the latter writes only ERR. -/
theorem errNeverChangesACommand : Obligations.ErrNeverChangesACommand := by
  intro i s e hi
  cases i with
  | wslot slot key wl wr => exact ⟨_, _, rfl, rfl, s.writeWaves_withErr e slot key wl wr⟩
  | wfact slot fac => exact ⟨_, _, rfl, rfl, s.writeFactor_withErr e slot fac⟩
  | read sel => exact ⟨_, _, rfl, rfl, s.readInto_withErr e fun h => hi (congrArg Instr.read h)⟩
  | _ => exact ⟨_, _, rfl, rfl, rfl⟩

/-- Settles O10, by what is first in the host's stream. -/
theorem everyStepAnswersANextState : Obligations.EveryStepAnswersANextState := by
  intro s
  simp only [step]
  cases s.port with
  | nil => exact ⟨s, rfl⟩
  | cons x rest =>
    cases x with
    | command w => exact execWord_answers w s.takeInput
    | resetInput => exact ⟨_, rfl⟩

end Sys2Proof.Machine

/-! The reset input (R240, R241), and that it and SRST restart the same sequence of samples (R242). -/

namespace Sys2Proof.Machine

open HostSide (tickn)

/-- A reset input of the host is taken and performed in one step (R230, R240). -/
theorem step_of_resetInput {s : State} {rest : List HostInput} (h : s.port = .resetInput :: rest) :
    step s = .next { s with port := rest }.applyReset := by
  simp only [step, h, performInput, State.takeInput, List.tail_cons]

/-- Settles O16: the reset input and SRST keep the table, and no entry is written at power-on. -/
theorem resetInputKeepsTheSlotTable : Obligations.ResetInputKeepsTheSlotTable := by
  refine ⟨fun s rest h => step_of_resetInput h, fun i => ?_, fun s => ⟨s.restart, exec_srst s, s.restart_table⟩⟩
  rw [State.reset_entry]
  exact ⟨rfl, rfl, rfl, rfl⟩

/-- SLOT is in range, so SETSLOT of its own number selects it again (R23, R185). -/
theorem clampedSlot_of_toNat_eq {imm8 : Byte} {i : Fin 61} (h : imm8.toNat = i.val) : clampedSlot imm8 = i :=
  Fin.ext (by rw [clampedSlot_val]; omega)

/-- With the controls set again, the reset input differs from SRST only in ERR and RDATA (R196, R240). -/
theorem State.applyReset_setControls (s : State) :
    ((s.applyReset.setPhaseStep s.phaseStep).setSlot s.slot).setCoef s.coef = s.restart.clearError.setRdata 0 := rfl

/-- ERR and RDATA are not on the sample path, and COUNT counts the TICKs of both runs alike (R29, R32). -/
theorem State.ticks_of_clearError_setRdata (n : Nat) (s : State) (v : Word) :
    SamePath (State.tick^[n] s) (State.tick^[n] (s.clearError.setRdata v)) ∧
    (State.tick^[n] s).emitted = (State.tick^[n] (s.clearError.setRdata v)).emitted ∧
    (State.tick^[n] s).count = (State.tick^[n] (s.clearError.setRdata v)).count := by
  have hstart : SamePath s (s.clearError.setRdata v) :=
    s.clearError_samePath.symm.trans (s.clearError.setRdata_samePath v).symm
  obtain ⟨hpath, samples, hs, ht⟩ :=
    samplesDependOnlyOnTheSamplePath _ _ _ _ _ hstart (execAll_tickn n s) (execAll_tickn n _)
  refine ⟨hpath, hs.trans ht.symm, BitVec.eq_of_toNat_eq ?_⟩
  rw [State.ticks_count_toNat, State.ticks_count_toNat]
  rfl

/-- Settles O51: the two restarts differ only off the sample path, so the TICKs after them do too. -/
theorem srstAndResetInputRestartAlike : Obligations.SrstAndResetInputRestartAlike := by
  intro n s slot hslot
  obtain ⟨hpath, hemitted, hcount⟩ := s.restart.ticks_of_clearError_setRdata n 0
  have hreset : execAll ([.setstep s.phaseStep, .setslot slot, .setcoef s.coef] ++ tickn n) s.applyReset =
      .next (State.tick^[n] (s.restart.clearError.setRdata 0)) := by
    rw [← s.applyReset_setControls, ← clampedSlot_of_toNat_eq hslot]
    exact execAll_tickn n _
  exact ⟨s.applyReset, s.restart, _, _, rfl, exec_srst s, ⟨rfl, rfl, rfl, rfl, rfl, rfl⟩, execAll_tickn n s.restart,
    hreset, hemitted, hpath.phase, hpath.int1, hpath.int2, hcount⟩

end Sys2Proof.Machine
